-- ==== Sys2Proof/Word.lean ====
section
/-! DEFINITION. The word types of the Keccak-f[1600] sponge engine: bytes, lanes, command words, operands and the
25-lane array.  Only types stand here; every operation on them is in Decode.lean or in a file of Machine/. -/

namespace Sys2Proof

/-- One byte of a message buffer, of an output buffer or of the state image (R13, R40). -/
abbrev Byte := BitVec 8

/-- One lane of the state: an unsigned 64-bit word (R7, R20). -/
abbrev Lane := BitVec 64

/-- A request's command word (R60). -/
abbrev CommandWord := BitVec 64

/-- The operand field of a command word, `OPERAND_WIDTH = 56` bits, unsigned (R9, R62). -/
abbrev Operand := BitVec 56

/-- The lane array: lane `i` is the lane at column `i mod 5` and row `i div 5` (R20, R21). -/
abbrev Lanes := Vector Lane 25

end Sys2Proof
end

