-- ==== Sys2Proof/Config.lean ====
section
/-! DEFINITION. What the spec leaves to an implementation: the parameters of R9, which the model takes as arguments, and
the values it leaves free (R144, R163).  The constants the spec does fix stand beside the operations that use them, in
the files of Machine/. -/

namespace Sys2Proof

/-- `ABSORB_BOUNDARY` (R9, R116): the comparison that ends the block loop of ABSORB. -/
inductive AbsorbBoundary where
  /-- `s + rem > rateBytes`: the source's algorithm as written, and the spec's default. -/
  | strict
  /-- `s + rem ≥ rateBytes`: what the source's invariant and permutation count imply. -/
  | nonstrict
deriving DecidableEq, Repr, Inhabited

/-- The two error codes a response can carry (R160).  There is no third. -/
inductive ErrorKind where
  /-- `STATUS = 1`: an ABSORB whose length is not a multiple of 8 (R161). -/
  | invalidLength
  /-- `STATUS = 2`: an ABSORB while the phase is Squeezing (R162). -/
  | invalidState
deriving DecidableEq, Repr, Inhabited

/-- The parameters of R9 that the source does not fix.  They are fixed for a whole run: no step writes them.
(`OPERAND_WIDTH`, whose only value is 56, is the width of the type `Operand`.) -/
structure Params where
  /-- `ABSORB_BOUNDARY`. -/
  absorbBoundary : AbsorbBoundary
  /-- `INIT_COST`, the cost INIT reports (R144). -/
  initCost : Nat
deriving DecidableEq, Repr

/-- FREE VALUE: the `INIT_COST` of the machine at reset.  The spec gives it no default and forbids a claim to assume a
value for it (R9, R144); log entry 3. -/
opaque Config.initCost : Nat

/-- FREE VALUE: which of the two codes an ABSORB reports when both its checks fail, as a draw (R163); the argument is
the number of such draws made before.  Log entry 4. -/
opaque Config.errorDraw : Nat → ErrorKind

/-- The parameters a machine starts with: `ABSORB_BOUNDARY` at the spec's default `STRICT` (R9, R116), `INIT_COST` free. -/
def Config.params : Params :=
  { absorbBoundary := .strict, initCost := Config.initCost }

end Sys2Proof
end

