-- ==== Sys2Proof/Syntax.lean ====
section
/-! DEFINITION. The instruction set as syntax: the three operations of the opcode table (R61), the request that spells
one (R60, R63), and the names under which a decoder turns a request away (R168). -/

namespace Sys2Proof

/-- One constructor per row of spec/opcode_table.json.  The source names exactly these three operations (R4, R64). -/
inductive Instr where
  /-- `INIT`, `OP = 0x1`: configure the rate and clear the state (R110). -/
  | init (rateBytes : Operand)
  /-- `ABSORB`, `OP = 0x2`: absorb the message of the request's buffer; its length is the command word's operand
  (R62, R63, R115). -/
  | absorb (message : List Byte)
  /-- `SQUEEZE`, `OP = 0x3`: output `nblocks` rate blocks (R124). -/
  | squeeze (nblocks : Operand)
deriving DecidableEq, Repr

/-- One request on the core's port: a 64-bit command word and the message buffer that comes with it, empty for INIT and
SQUEEZE (R60, R63). -/
structure Request where
  cmd : CommandWord
  buf : List Byte
deriving DecidableEq, Repr

/-- The encoding refusals (R168), raised by the decoder of R73. -/
inductive DecodeRefusal where
  /-- `RSVD` is not zero. -/
  | reservedField
  /-- `OP` is not 1, 2 or 3. -/
  | reservedOpcode
  /-- An ABSORB's buffer length differs from its `OPERAND`, or an INIT or SQUEEZE carries a non-empty buffer. -/
  | bufferMismatch
deriving DecidableEq, Repr

end Sys2Proof
end

