-- ==== Sys2Proof/WellFormed.lean ====
section
/-! DEFINITION. Which instructions a request can spell.  INIT and SQUEEZE take every 56-bit operand (R62, R111); an
ABSORB's length must fit the operand field (R46, R62). -/

namespace Sys2Proof

/-- The check, as a Bool. -/
def Instr.wf : Instr → Bool
  | .init _ => true
  | .absorb message => decide (message.length < 2 ^ 56)
  | .squeeze _ => true

/-- The instruction is one that some request spells. -/
abbrev Instr.WellFormed (i : Instr) : Prop := i.wf = true

end Sys2Proof
end

