-- ==== Sys2Proof/Decode.lean ====
section
/-! DEFINITION. The decoder of R73, total on every command word and buffer, and the encoder written from the same table
(R60 to R63).  Below them, the request that the bits of an opcode-table row lay out. -/

namespace Sys2Proof

/-! ### The fields of a command word (R60) -/

/-- `cmd[3:0]`. -/
def opField (cmd : CommandWord) : BitVec 4 := cmd.extractLsb' 0 4

/-- `cmd[7:4]`. -/
def rsvdField (cmd : CommandWord) : BitVec 4 := cmd.extractLsb' 4 4

/-- `cmd[63:8]`. -/
def operandField (cmd : CommandWord) : Operand := cmd.extractLsb' 8 56

/-- `OP` of INIT (R61). -/
def opInit : BitVec 4 := 0x1#4

/-- `OP` of ABSORB (R61). -/
def opAbsorb : BitVec 4 := 0x2#4

/-- `OP` of SQUEEZE (R61). -/
def opSqueeze : BitVec 4 := 0x3#4

/-! ### Decode and encode -/

/-- The decode function of R73, its checks in the rule's order.  The operand is zero-extended and neither scaled nor
shifted (R62), so an ABSORB's length is `operand.toNat`. -/
def decode (q : Request) : Except DecodeRefusal Instr :=
  let op := opField q.cmd
  let arg := operandField q.cmd
  if rsvdField q.cmd ≠ 0#4 then .error .reservedField
  else if op = opInit ∧ q.buf.length = 0 then .ok (.init arg)
  else if op = opAbsorb ∧ q.buf.length = arg.toNat then .ok (.absorb q.buf)
  else if op = opSqueeze ∧ q.buf.length = 0 then .ok (.squeeze arg)
  else if op = opInit ∨ op = opAbsorb ∨ op = opSqueeze then .error .bufferMismatch
  else .error .reservedOpcode

/-- A command word from its fields, `RSVD` zero (R60). -/
def commandWord (op : BitVec 4) (arg : Operand) : CommandWord := arg ++ (0#4 ++ op)

/-- The request that spells a well-formed instruction (R60 to R63). -/
def encode : Instr → Request
  | .init rateBytes => { cmd := commandWord opInit rateBytes, buf := [] }
  | .absorb message => { cmd := commandWord opAbsorb (BitVec.ofNat 56 message.length), buf := message }
  | .squeeze nblocks => { cmd := commandWord opSqueeze nblocks, buf := [] }

/-! ### The bits of an opcode-table row as a request -/

/-- `n` bytes from the bits of `w`, least significant byte first. -/
def tableBytes : Nat → Nat → List Byte
  | 0, _ => []
  | n + 1, w => BitVec.ofNat 8 w :: tableBytes n (w / 256)

/-- The request whose bits are the low `nbits` bits of `w`, every bit above them zero: the command word is bits 63..0,
and an ABSORB's message buffer, exactly `OPERAND` bytes, is the bits from 64 on (R60, R63). -/
def tableRequest (nbits w : Nat) : Request :=
  let bits := w % 2 ^ nbits
  let cmd := BitVec.ofNat 64 bits
  { cmd := cmd,
    buf := if opField cmd = opAbsorb then tableBytes (operandField cmd).toNat (bits / 2 ^ 64) else [] }

/-- The instruction the decoder reads from an opcode-table row's bits, `none` where it refuses. -/
def decodeTableWord (nbits w : Nat) : Option Instr :=
  match decode (tableRequest nbits w) with
  | .ok i => some i
  | .error _ => none

end Sys2Proof
end

