-- ==== Sys2Proof/Machine/State.lean ====
section
/-! DEFINITION. The machine's state as plain data, its responses, its faults (none) and refusals, and the state after
reset. -/

namespace Sys2Proof.Machine

/-- `phase` (R24). -/
inductive Phase where
  | absorbing
  | squeezing
deriving DecidableEq, Repr

/-- The sponge: the lane array and the control state (R20, R24 to R29). -/
structure Sponge where
  /-- `lanes[0]` to `lanes[24]` (R20, R21). -/
  lanes : Lanes
  /-- The configured rate in bytes: any value the INIT operand can carry (R26). -/
  rateBytes : Operand
  /-- Absorbing or Squeezing (R24). -/
  phase : Phase
  /-- Bytes XORed into the rate block that is not yet permuted (R25).  An exact count (R11). -/
  pendingBytes : Nat
  /-- False after reset, true after any INIT (R28). -/
  configured : Bool
deriving DecidableEq, Repr

/-- The response to one request (R67).  An error response carries its status alone: R68 gives it no count, cost or
output, so this type has nowhere to hold one. -/
inductive Response where
  /-- `STATUS = 0`, with `PERMS`, `COST` and `OUT`. -/
  | ok (perms cost : Nat) (out : List Byte)
  /-- `STATUS = 1` or `2`. -/
  | error (kind : ErrorKind)
deriving DecidableEq, Repr

/-- What the outside world can do to the core: make a request (R51), or reset it between requests (R177, R181). -/
inductive Input where
  | request (q : Request)
  | hardwareReset
deriving DecidableEq, Repr

/-- The machine has no faults: the spec treats no behaviour as `fault` or `stuck`, and the core has no trap mechanism to
fault into (R172; 93_implementation_defined.md, end of Part 1).  Safe: nothing raises one. -/
inductive Fault where
deriving DecidableEq, Repr

/-- Why a request has no meaning (R165 to R168).  Every reason is safe: the model stops, as the spec says it must, where
the source does not say what the hardware does. -/
inductive Refusal where
  /-- Raised by an arm of `exec` that has no meaning yet; no arm is left that does.  Safe. -/
  | notModelled (mnemonic : String)
  /-- Raised by `step` on a request the decoder turns away (R168).  Safe. -/
  | encoding (why : DecodeRefusal)
  /-- Raised by ABSORB and SQUEEZE before any INIT (R167).  Safe. -/
  | unconfigured
  /-- Raised by ABSORB and SQUEEZE while `rateBytes` is not a valid rate (R166).  Safe. -/
  | invalidRate
deriving DecidableEq, Repr

/-- The whole machine.  `sponge` and `opCounter` are the state the spec gives the core; `refusedMark` is the sticky mark
of R165; `inputs` and `responses` are the two sides of its port; `params` holds the arguments of R9; `draws` is the
model's own counter of free values (log entry 4). -/
structure State where
  /-- Lanes and control state. -/
  sponge : Sponge
  /-- The Timing Model's diagnostic operation counter, modulo `2^64` (R32). -/
  opCounter : BitVec 64
  /-- Inputs not yet accepted, the next one first (R51). -/
  inputs : List Input
  /-- Responses sent, the first one first (R67). -/
  responses : List Response
  /-- The sticky `refused` mark (R165). -/
  refusedMark : Option Refusal
  /-- `ABSORB_BOUNDARY` and `INIT_COST` (R9).  No step writes it. -/
  params : Params
  /-- How many error-code draws have been made (R163). -/
  draws : Nat
deriving DecidableEq, Repr

/-- The lane array with every lane zero. -/
def zeroLanes : Lanes := Vector.replicate 25 0#64

/-- The sponge after a hardware reset: not configured (R34).  R34 leaves the other fields unspecified and no rule reads
them; the values here are DESIGN CHOICE, log entry 1. -/
def Sponge.atReset : Sponge :=
  { lanes := zeroLanes, rateBytes := 0#56, phase := .absorbing, pendingBytes := 0, configured := false }

/-- The value the operation counter takes at a hardware reset: unspecified by R34; DESIGN CHOICE, log entry 1. -/
def opCounterAtReset : BitVec 64 := 0#64

/-- The machine right after reset (R34, R180), with no input waiting, nothing sent and no refusal. -/
def State.reset : State :=
  { sponge := Sponge.atReset, opCounter := opCounterAtReset, inputs := [], responses := [], refusedMark := none,
    params := Config.params, draws := 0 }

end Sys2Proof.Machine
end

