-- ==== Sys2Proof/Machine/Operands.lean ====
section
/-! DEFINITION. How the operations read their operands (R62) and the configured rate (R26, R27).  An operand is unsigned,
zero-extended, never scaled or shifted, and names no address (R40, R50): there are no other operand forms. -/

namespace Sys2Proof.Machine

/-- `RATE_MIN` (R7). -/
def rateMin : Nat := 8

/-- `RATE_MAX` (R7): the whole 200-byte state; zero capacity is accepted (R27). -/
def rateMax : Nat := 200

/-- `RATE_ALIGN` (R7). -/
def rateAlign : Nat := 8

/-- `WORD` (R7): ABSORB lengths must be a multiple of this. -/
def wordBytes : Nat := 8

/-- An operand as the natural number it denotes (R11, R62). -/
def operandValue (arg : Operand) : Nat := arg.toNat

/-- The configured rate is valid: 8, 16, 24, …, 200 (R27). -/
def validRate (rateBytes : Operand) : Bool :=
  decide (operandValue rateBytes % rateAlign = 0 ∧ rateMin ≤ operandValue rateBytes
    ∧ operandValue rateBytes ≤ rateMax)

/-- The sponge's rate in bytes as a natural number. -/
def Sponge.rate (sp : Sponge) : Nat := operandValue sp.rateBytes

/-- `rateBytes/8 - 1`, the last lane of the rate block, which takes the finalization bit (R15, R123). -/
def Sponge.lastRateLane (sp : Sponge) : Nat := sp.rate / 8 - 1

end Sys2Proof.Machine
end

