-- ==== Sys2Proof/Machine/Flags.lean ====
section
/-! DEFINITION. The core has no condition codes (R31).  What stands in their place: the status code of a response (R67,
R160), which is not kept as state, and the two checks of ABSORB that raise an error (R113, R114). -/

namespace Sys2Proof.Machine

/-- `STATUS` of an error (R160). -/
def errorStatus : ErrorKind → BitVec 2
  | .invalidLength => 1#2
  | .invalidState => 2#2

/-- `STATUS` of a response: 0 OK, 1 InvalidLength, 2 InvalidState (R67). -/
def Response.status : Response → BitVec 2
  | .ok _ _ _ => 0#2
  | .error kind => errorStatus kind

/-- The length check of ABSORB fails (R113). -/
def badLength (message : List Byte) : Bool := decide (message.length % wordBytes ≠ 0)

/-- The phase check of ABSORB fails (R114). -/
def badPhase (sp : Sponge) : Bool :=
  match sp.phase with
  | .absorbing => false
  | .squeezing => true

end Sys2Proof.Machine
end

