-- ==== Sys2Proof/Machine/Bytes.lean ====
section
/-! DEFINITION. The lane array as a register file and as the 200-byte state image (R20, R41), and the byte order in which
ABSORB and SQUEEZE use it (R42 to R44).  The core has no other memory (R40, R55). -/

namespace Sys2Proof.Machine

/-- `lanes[k]` (R12).  No rule reads past lane 24 (R118, R125, R166); there the answer is zero. -/
def lane (a : Lanes) (k : Nat) : Lane := a.toList.getD k 0#64

/-- `lanes[k] <- v` (R12).  No rule writes past lane 24 (R118, R166); there nothing is written. -/
def setLane (a : Lanes) (k : Nat) (v : Lane) : Lanes := a.setIfInBounds k v

/-- The lane array whose lane `i` is `f i`. -/
def tabulate (f : Nat → Lane) : Lanes :=
  #v[f 0, f 1, f 2, f 3, f 4, f 5, f 6, f 7, f 8, f 9, f 10, f 11, f 12, f 13, f 14, f 15, f 16, f 17, f 18, f 19,
    f 20, f 21, f 22, f 23, f 24]

/-- Byte `j` of a lane, byte 0 the least significant: `v[8*j + 7 : 8*j]`. -/
def laneByte (v : Lane) (j : Nat) : Byte := v.extractLsb' (8 * j) 8

/-- The eight bytes of a lane, least significant first (R42). -/
def laneBytes (v : Lane) : List Byte := (List.range 8).map (laneByte v)

/-- `StateByte(j)`: byte `j mod 8` of lane `j div 8` (R41). -/
def stateByte (a : Lanes) (j : Nat) : Byte := laneByte (lane a (j / 8)) (j % 8)

/-- `StateByte(j) <- StateByte(j) ^ b` (R41, R43): the byte at its place in its lane, XORed in. -/
def xorStateByte (a : Lanes) (j : Nat) (b : Byte) : Lanes :=
  setLane a (j / 8) (lane a (j / 8) ^^^ (b.setWidth 64 <<< (8 * (j % 8))))

/-- XOR a run of bytes into the state image from byte `s` on, in order (R43, R119). -/
def xorBytes (a : Lanes) (s : Nat) : List Byte → Lanes
  | [] => a
  | b :: bs => xorBytes (xorStateByte a s b) (s + 1) bs

/-- A group of bytes read little-endian as one word, `b0 | b1 << 8 | …` (R44). -/
def littleEndian : List Byte → Lane
  | [] => 0#64
  | b :: bs => b.setWidth 64 ||| (littleEndian bs <<< 8)

/-- The rate block as output: lanes `0` to `rate/8 - 1` in lane order, each least significant byte first (R42, R125). -/
def rateBlock (rate : Nat) (a : Lanes) : List Byte :=
  (List.range (rate / 8)).flatMap fun k => laneBytes (lane a k)

end Sys2Proof.Machine
end

