-- ==== Sys2Proof/Machine/Permutation.lean ====
section
/-! DEFINITION. The Permutation Engine: Keccak-f[1600], 24 rounds of theta, rho, pi, chi and iota (R80 to R98).  It keeps
no state between calls (R23). -/

namespace Sys2Proof.Machine

/-- `A[x, y]`, the lane at column `x` and row `y`; coordinate expressions are taken mod 5 (R11, R12, R21). -/
def laneAt (a : Lanes) (x y : Nat) : Lane := lane a (x % 5 + 5 * (y % 5))

/-- `ROTL64(v, n)` (R11), for `n < 64`. -/
def rotl64 (v : Lane) (n : Nat) : Lane := if n = 0 then v else (v <<< n) ||| (v >>> (64 - n))

/-! ### Theta (R83) -/

/-- `C[x]`, the parity of column `x`. -/
def columnParity (a : Lanes) (x : Nat) : Lane :=
  laneAt a x 0 ^^^ laneAt a x 1 ^^^ laneAt a x 2 ^^^ laneAt a x 3 ^^^ laneAt a x 4

/-- `D[x] = C[x - 1] ^ ROTL64(C[x + 1], 1)`; `x - 1` is `x + 4` mod 5. -/
def thetaEffect (a : Lanes) (x : Nat) : Lane :=
  columnParity a ((x + 4) % 5) ^^^ rotl64 (columnParity a ((x + 1) % 5)) 1

/-- Theta: every lane XORed with its column's `D`. -/
def thetaStep (a : Lanes) : Lanes :=
  let d := [thetaEffect a 0, thetaEffect a 1, thetaEffect a 2, thetaEffect a 3, thetaEffect a 4]
  tabulate fun i => lane a i ^^^ d.getD (i % 5) 0#64

/-! ### Rho (R84, R85) -/

/-- `RHO[i]` by lane index, the source's table. -/
def rhoOffsets : List Nat :=
  [0, 1, 62, 28, 27, 36, 44, 6, 55, 20, 3, 10, 43, 25, 39, 41, 45, 15, 21, 8, 18, 2, 61, 56, 14]

/-- Rho: lane `i` rotated left by `RHO[i]`. -/
def rhoStep (a : Lanes) : Lanes := tabulate fun i => rotl64 (lane a i) (rhoOffsets.getD i 0)

/-! ### Pi (R86) -/

/-- `PI_SRC[k]`: the input lane that output lane `k` takes. -/
def piSources : List Nat :=
  [0, 6, 12, 18, 24, 3, 9, 10, 16, 22, 1, 7, 13, 19, 20, 4, 5, 11, 17, 23, 2, 8, 14, 15, 21]

/-- Pi: lane `(x, y)` moves to `(y, (2x + 3y) mod 5)`, read as sources. -/
def piStep (a : Lanes) : Lanes := tabulate fun k => lane a (piSources.getD k 0)

/-! ### Chi (R87) -/

/-- Chi: within each row, every output from the step's input. -/
def chiStep (a : Lanes) : Lanes :=
  tabulate fun i => lane a i ^^^ (~~~ laneAt a (i + 1) (i / 5) &&& laneAt a (i + 2) (i / 5))

/-! ### Iota (R88, R89) -/

/-- `RC[0]` to `RC[23]`. -/
def roundConstants : List Lane :=
  [0x0000000000000001#64, 0x0000000000008082#64, 0x800000000000808A#64, 0x8000000080008000#64,
   0x000000000000808B#64, 0x0000000080000001#64, 0x8000000080008081#64, 0x8000000000008009#64,
   0x000000000000008A#64, 0x0000000000000088#64, 0x0000000080008009#64, 0x000000008000000A#64,
   0x000000008000808B#64, 0x800000000000008B#64, 0x8000000000008089#64, 0x8000000000008003#64,
   0x8000000000008002#64, 0x8000000000000080#64, 0x000000000000800A#64, 0x800000008000000A#64,
   0x8000000080008081#64, 0x8000000000008080#64, 0x0000000080000001#64, 0x8000000080008008#64]

/-- Iota in round `ir`: `RC[ir]` XORed into lane 0, the other lanes as they are. -/
def iotaStep (a : Lanes) (ir : Nat) : Lanes := setLane a 0 (lane a 0 ^^^ roundConstants.getD ir 0#64)

/-! ### Rounds (R81, R90, R98) -/

/-- One round: theta, rho, pi, chi, iota, in that order. -/
def keccakRound (a : Lanes) (ir : Nat) : Lanes := iotaStep (chiStep (piStep (rhoStep (thetaStep a)))) ir

/-- The first `n` rounds, round `ir` using `RC[ir]`. -/
def firstRounds (a : Lanes) : Nat → Lanes
  | 0 => a
  | n + 1 => keccakRound (firstRounds a n) n

/-- `NR`, the rounds of one permutation (R7). -/
def roundCount : Nat := 24

/-- `Permute()`: all 24 rounds (R80, R98). -/
def permute (a : Lanes) : Lanes := firstRounds a roundCount

end Sys2Proof.Machine
end

