-- ==== Sys2Proof/Machine/Timing.lean ====
section
/-! DEFINITION. The Timing Model's cost formulas (R140 to R142).  A cost is reported and changes no state (R148); counts
and costs are exact natural numbers (R146). -/

namespace Sys2Proof.Machine

/-- `ABSORB_WORD_COST` (R140). -/
def absorbWordCost : Nat := 2

/-- `SQUEEZE_WORD_COST` (R140). -/
def squeezeWordCost : Nat := 1

/-- `PERM_COST`, which the source writes `24+2` (R140). -/
def permCost : Nat := 24 + 2

/-- `ISSUE_COST` (R140). -/
def issueCost : Nat := 4

/-- `ceil(n / 8)` (R11): the 8-byte words that `n` bytes take. -/
def ceilWords (n : Nat) : Nat := (n + 7) / 8

/-- `CostAbsorb(len, p)` (R141). -/
def costAbsorb (len p : Nat) : Nat := absorbWordCost * ceilWords len + p * permCost + issueCost

/-- `CostSqueeze(len, p)` (R142). -/
def costSqueeze (len p : Nat) : Nat := squeezeWordCost * ceilWords len + p * permCost + issueCost

end Sys2Proof.Machine
end

