-- ==== Sys2Proof/Machine/Ops.lean ====
section
/-! DEFINITION. The named operations the meanings share: admission, the response, raising an error, the sponge's own
state changes, the hardware reset and the sticky refusal mark.

There is no exception to take and none to return from: the core saves no state, switches no mode and vectors nowhere
(R172).  What stands in their place is `State.raise`, an error response that changes no state (R164). -/

namespace Sys2Proof.Machine

/-- The outcome of a step of this machine. -/
abbrev Result := Host.Outcome State Fault Refusal

/-! ### The port -/

/-- Send a response (R67). -/
def State.respond (s : State) (r : Response) : State := { s with responses := s.responses ++ [r] }

/-- Replace the sponge. -/
def State.withSponge (s : State) (sp : Sponge) : State := { s with sponge := sp }

/-- One more ABSORB or SQUEEZE completed with status OK, modulo `2^64` (R32). -/
def State.countOp (s : State) : State := { s with opCounter := s.opCounter + 1#64 }

/-- An ABSORB or SQUEEZE completes: its state change, the operation counter and its OK response (R13, R32, R68). -/
def State.complete (s : State) (sp : Sponge) (perms cost : Nat) (out : List Byte) : State :=
  ((s.withSponge sp).countOp).respond (.ok perms cost out)

/-- `raise kind` (R13, R161 to R164): the error response, and no other change. -/
def State.raise (s : State) (kind : ErrorKind) : State := s.respond (.error kind)

/-- Both of ABSORB's checks fail: one of the two codes, as a draw (R163, log entry 4). -/
def State.raiseDrawn (s : State) : State :=
  ({ s with draws := s.draws + 1 }).raise (Config.errorDraw s.draws)

/-- The admission checks of 41_sponge.md (R166, R167, in the order of R169): why an ABSORB or SQUEEZE is refused, if it is. -/
def admission (sp : Sponge) : Option Refusal :=
  if sp.configured = false then some .unconfigured
  else if validRate sp.rateBytes = false then some .invalidRate
  else none

/-! ### INIT -/

/-- The sponge after INIT with operand `r`, whatever it was before (R35, R110). -/
def Sponge.configure (rateBytes : Operand) : Sponge :=
  { lanes := zeroLanes, rateBytes := rateBytes, phase := .absorbing, pendingBytes := 0, configured := true }

/-! ### ABSORB -/

/-- The working values of one ABSORB (R115): the lanes, `pendingBytes`, the message bytes not yet consumed (so that
`rem` is their number and `off` is implied) and the permutation count `p`. -/
structure AbsorbWork where
  lanes : Lanes
  pending : Nat
  rest : List Byte
  perms : Nat
deriving DecidableEq, Repr

/-- `more(s, rem)`, the test of the block loop (R116). -/
def more (boundary : AbsorbBoundary) (rate pending rem : Nat) : Bool :=
  match boundary with
  | .strict => decide (pending + rem > rate)
  | .nonstrict => decide (pending + rem ≥ rate)

/-- One pass of the block loop: fill the rate block, permute, start a new block (R117). -/
def absorbPass (rate : Nat) (w : AbsorbWork) : AbsorbWork :=
  let n := rate - w.pending
  { lanes := permute (xorBytes w.lanes w.pending (w.rest.take n)), pending := 0, rest := w.rest.drop n,
    perms := w.perms + 1 }

/-- The block loop (R115, R116), with fuel for its passes. -/
def absorbLoop (boundary : AbsorbBoundary) (rate : Nat) : Nat → AbsorbWork → AbsorbWork
  | 0, w => w
  | fuel + 1, w =>
    if more boundary rate w.pending w.rest.length then absorbLoop boundary rate fuel (absorbPass rate w) else w

/-- The bytes left after the loop (R118). -/
def absorbTail (w : AbsorbWork) : AbsorbWork :=
  { lanes := xorBytes w.lanes w.pending w.rest, pending := w.pending + w.rest.length, rest := [], perms := w.perms }

/-- Everything an accepted ABSORB does to its working values.  Every pass but the first consumes at least eight bytes
(R117), so one unit of fuel for each message byte and one more never run out (R192). -/
def absorbAll (boundary : AbsorbBoundary) (rate : Nat) (w : AbsorbWork) : AbsorbWork :=
  absorbTail (absorbLoop boundary rate (w.rest.length + 1) w)

/-- The working values an accepted ABSORB of `message` ends with (R115). -/
def Sponge.absorbWork (sp : Sponge) (boundary : AbsorbBoundary) (message : List Byte) : AbsorbWork :=
  absorbAll boundary sp.rate { lanes := sp.lanes, pending := sp.pendingBytes, rest := message, perms := 0 }

/-- An accepted ABSORB completes (R115, R120, R141). -/
def State.absorb (s : State) (message : List Byte) : State :=
  let w := s.sponge.absorbWork s.params.absorbBoundary message
  s.complete { s.sponge with lanes := w.lanes, pendingBytes := w.pending } w.perms
    (costAbsorb message.length w.perms) []

/-! ### SQUEEZE -/

/-- The finalization of the first SQUEEZE after an INIT (R123); nothing on a later one. -/
def Sponge.finalize (sp : Sponge) : Sponge :=
  match sp.phase with
  | .absorbing =>
    { sp with lanes := setLane sp.lanes sp.lastRateLane (lane sp.lanes sp.lastRateLane ^^^ (1#64 <<< 63)),
              pendingBytes := 0, phase := .squeezing }
  | .squeezing => sp

/-- Permute and output a rate block, `n` times (R124, R125): the output and the lanes left. -/
def squeezeBlocks (rate : Nat) : Nat → Lanes → List Byte × Lanes
  | 0, a => ([], a)
  | n + 1, a =>
    let a' := permute a
    let later := squeezeBlocks rate n a'
    (rateBlock rate a' ++ later.1, later.2)

/-- An admitted SQUEEZE completes (R124, R126, R142). -/
def State.squeeze (s : State) (nblocks : Nat) : State :=
  let sp := s.sponge.finalize
  let blocks := squeezeBlocks sp.rate nblocks sp.lanes
  s.complete { sp with lanes := blocks.2 } nblocks (costSqueeze (nblocks * sp.rate) nblocks) blocks.1

/-! ### Reset and refusal -/

/-- A hardware reset between requests (R34, R177, R181): the core's state as after reset.  The port's record, the
parameters and the draw counter are the model's own and stay. -/
def State.hardwareReset (s : State) : State :=
  { s with sponge := Sponge.atReset, opCounter := opCounterAtReset }

/-- Put the sticky `refused` mark on the state (R165). -/
def State.markRefused (s : State) (r : Refusal) : State := { s with refusedMark := some r }

/-- The state with the first waiting input taken. -/
def State.withInputs (s : State) (rest : List Input) : State := { s with inputs := rest }

/-- The state in which an opcode-table row's request is the next input. -/
def State.offerTableRequest (s : State) (nbits w : Nat) : State :=
  s.withInputs (.request (tableRequest nbits w) :: s.inputs)

end Sys2Proof.Machine
end

