-- ==== Sys2Proof/Machine/Sponge.lean ====
section
/-! DEFINITION. The meanings of the three operations of the Sponge State Machine, each with the cost the Timing Model
reports (R110 to R129, R140 to R149).  Each request is all-or-nothing (R14). -/

namespace Sys2Proof.Machine

/-- INIT (R110 to R112): accepted in every state and for every operand; `opCounter` stays (R35). -/
def execInit (rateBytes : Operand) (s : State) : Result :=
  .next ((s.withSponge (Sponge.configure rateBytes)).respond (.ok 0 s.params.initCost []))

/-- ABSORB (R113 to R121): admission first, then the two checks (R169), then the operation. -/
def execAbsorb (message : List Byte) (s : State) : Result :=
  match admission s.sponge with
  | some why => .refused why
  | none =>
    match badLength message, badPhase s.sponge with
    | true, true => .next s.raiseDrawn
    | true, false => .next (s.raise .invalidLength)
    | false, true => .next (s.raise .invalidState)
    | false, false => .next (s.absorb message)

/-- SQUEEZE (R123 to R128): admission, then the operation; it raises no error (R160). -/
def execSqueeze (nblocks : Operand) (s : State) : Result :=
  match admission s.sponge with
  | some why => .refused why
  | none => .next (s.squeeze (operandValue nblocks))

end Sys2Proof.Machine
end

