-- ==== Sys2Proof/Machine/Dispatch.lean ====
section
/-! DEFINITION. One arm per instruction. -/

namespace Sys2Proof.Machine

def exec (i : Instr) (s : State) : Host.Outcome State Fault Refusal :=
  match i with
  | .init rateBytes => Sys2Proof.Machine.execInit rateBytes s
  | .absorb message => Sys2Proof.Machine.execAbsorb message s
  | .squeeze nblocks => Sys2Proof.Machine.execSqueeze nblocks s

end Sys2Proof.Machine
end

