-- ==== Sys2Proof/Machine/Step.lean ====
section
/-! DEFINITION. One step of the machine: the next input is taken whole (R47, R51). -/

namespace Sys2Proof.Machine

/-- One step.  A state that carries the `refused` mark runs no further (R165).  With no input waiting the core is idle
and keeps all its state (R177, R182).  A request is decoded and run, or refused if it spells nothing (R169, R168). -/
def step (s : State) : Host.Outcome State Fault Refusal :=
  match s.refusedMark with
  | some why => .refused why
  | none =>
    match s.inputs with
    | [] => .next s
    | .hardwareReset :: rest => .next (s.withInputs rest).hardwareReset
    | .request q :: rest =>
      match decode q with
      | .error why => .refused (.encoding why)
      | .ok i => exec i (s.withInputs rest)

/-- A run's own view of one step: the next state, or this state with the sticky `refused` mark (R165). -/
def advance (s : State) : State :=
  match step s with
  | .next t => t
  | .refused why => s.markRefused why
  | .fault _ => s

/-- The state whose next step runs the request that an opcode-table row's bits lay out.  The core fetches no
instruction (R54): a request comes from outside, so this puts it first among the waiting inputs. -/
def State.withFetchWord (s : State) (nbits w : Nat) : State := s.offerTableRequest nbits w

end Sys2Proof.Machine
end

