-- ==== Sys2Proof/Machine/Assembler.lean ====
section
/-! DEFINITION. The spec's textual syntax for requests (R69) and its one pseudo-instruction `absorb.pad` (R70).  Notation
only: the machine never reads it. -/

namespace Sys2Proof.Machine

/-- One line of R69 or R70. -/
inductive AsmLine where
  | init (rateBytes : Nat)
  | absorb (length : Nat) (message : List Byte)
  | squeeze (nblocks : Nat)
  | absorbPad (message : List Byte) (domain : Byte)
deriving DecidableEq, Repr

/-- The zero bytes, 0 to 7, that bring a length to a multiple of 8 (R70). -/
def padZeros (length : Nat) : Nat := (8 - length % 8) % 8

/-- The message of the `absorb` that `absorb.pad` expands to: the bytes, the domain byte, the least number of zero bytes
that makes the length a multiple of 8 (R70). -/
def padMessage (message : List Byte) (domain : Byte) : List Byte :=
  message ++ domain :: List.replicate (padZeros (message.length + 1)) 0#8

/-- The request with a given operand value, if the operand field can hold it (R62). -/
def requestOf (op : BitVec 4) (arg : Nat) (buf : List Byte) : Option Request :=
  if arg < 2 ^ 56 then some { cmd := commandWord op (BitVec.ofNat 56 arg), buf := buf } else none

/-- The request a line stands for; `none` where a numeral does not fit the operand field.  A written length that is not
the number of bytes is kept: the decoder refuses it (R63). -/
def assemble : AsmLine → Option Request
  | .init rateBytes => requestOf opInit rateBytes []
  | .absorb length message => requestOf opAbsorb length message
  | .squeeze nblocks => requestOf opSqueeze nblocks []
  | .absorbPad message domain =>
    requestOf opAbsorb (padMessage message domain).length (padMessage message domain)

/-! ### Reading a line -/

/-- The value of a digit in a base up to 16. -/
def digitValue (base : Nat) (c : Char) : Option Nat :=
  let n := c.toNat
  let v :=
    if 48 ≤ n ∧ n ≤ 57 then some (n - 48)
    else if 97 ≤ n ∧ n ≤ 102 then some (n - 87)
    else if 65 ≤ n ∧ n ≤ 70 then some (n - 55)
    else none
  v.bind fun d => if d < base then some d else none

/-- The value of a run of digits, most significant first, from a value already read. -/
def digitsValue (base : Nat) : Nat → List Char → Option Nat
  | acc, [] => some acc
  | acc, c :: cs =>
    match digitValue base c with
    | some d => digitsValue base (acc * base + d) cs
    | none => none

/-- A numeral: decimal, or hexadecimal after `0x` (R69). -/
def numeral : List Char → Option Nat
  | [] => none
  | '0' :: 'x' :: c :: cs => digitsValue 16 0 (c :: cs)
  | c :: cs => digitsValue 10 0 (c :: cs)

/-- A hex byte: two hexadecimal digits. -/
def hexByte : List Char → Option Byte
  | [a, b] => (digitsValue 16 0 [a, b]).map (BitVec.ofNat 8)
  | _ => none

/-- Hex bytes in order, `MsgByte(0)` first. -/
def hexBytes : List (List Char) → Option (List Byte)
  | [] => some []
  | t :: ts =>
    match hexByte t, hexBytes ts with
    | some b, some bs => some (b :: bs)
    | _, _ => none

/-- Put a word that has been read, last character first, before the words that follow it. -/
def closeWord (word : List Char) (later : List (List Char)) : List (List Char) :=
  if word = [] then later else word.reverse :: later

/-- A line's words: blanks separate them and a comma is a word of its own. -/
def lineWords : List Char → List Char → List (List Char)
  | word, [] => closeWord word []
  | word, c :: cs =>
    if c = ' ' then closeWord word (lineWords [] cs)
    else if c = ',' then closeWord word ([','] :: lineWords [] cs)
    else lineWords (c :: word) cs

/-- The hex bytes before the comma and the one domain byte after it (R70). -/
def padOperands : List (List Char) → List Byte → Option AsmLine
  | [[','], d], bytes => (hexByte d).map fun domain => .absorbPad bytes domain
  | t :: ts, bytes =>
    match hexByte t with
    | some b => padOperands ts (bytes ++ [b])
    | none => none
  | [], _ => none

/-- One line of the textual syntax (R69, R70). -/
def parseLine (line : List Char) : Option AsmLine :=
  match lineWords [] line with
  | [['i', 'n', 'i', 't'], n] => (numeral n).map .init
  | [['s', 'q', 'u', 'e', 'e', 'z', 'e'], n] => (numeral n).map .squeeze
  | ['a', 'b', 's', 'o', 'r', 'b'] :: n :: [','] :: bytes =>
    match numeral n, hexBytes bytes with
    | some length, some message => some (.absorb length message)
    | _, _ => none
  | ['a', 'b', 's', 'o', 'r', 'b', '.', 'p', 'a', 'd'] :: operands => padOperands operands []
  | _ => none

end Sys2Proof.Machine
end

