-- ==== Sys2Proof/Safety.lean ====
section
/-! DEFINITION. The words claims are made in: the invariant of the control state, when an instruction is admitted, a
sequence of requests, and the padded sponge construction that the engine is measured against.  Nothing in the machine
uses this file. -/

namespace Sys2Proof

/-- The instruction is an ABSORB or a SQUEEZE. -/
def Instr.usesSponge : Instr → Bool
  | .init _ => false
  | .absorb _ => true
  | .squeeze _ => true

end Sys2Proof

namespace Sys2Proof.Machine

/-! ### The invariant -/

/-- The control state's invariant under a boundary test (R25, R111, R129).  It says nothing before the first INIT, where
R34 leaves every field unspecified.  With a valid rate, `pendingBytes` is a multiple of 8 in the range R25 gives, and 0
while Squeezing (R123).  With an invalid rate, nothing has happened since INIT (R166). -/
def Sponge.Inv (boundary : AbsorbBoundary) (sp : Sponge) : Prop :=
  sp.configured = true →
    (validRate sp.rateBytes = true →
      sp.pendingBytes % 8 = 0 ∧ sp.pendingBytes ≤ sp.rate
        ∧ (boundary = .nonstrict → sp.pendingBytes < sp.rate)
        ∧ (sp.phase = .squeezing → sp.pendingBytes = 0))
    ∧ (validRate sp.rateBytes = false →
      sp.lanes = zeroLanes ∧ sp.phase = .absorbing ∧ sp.pendingBytes = 0)

/-- The machine's invariant. -/
def State.Inv (s : State) : Prop := s.sponge.Inv s.params.absorbBoundary

/-! ### Admission -/

/-- The sponge admits ABSORB and SQUEEZE: configured, with a valid rate (R27, R166, R167). -/
def Sponge.Admits (sp : Sponge) : Prop := sp.configured = true ∧ validRate sp.rateBytes = true

/-- An ABSORB of this message is accepted: admitted, Absorbing, a whole number of words (R113, R114). -/
def State.AcceptsAbsorb (s : State) (message : List Byte) : Prop :=
  s.sponge.Admits ∧ s.sponge.phase = .absorbing ∧ message.length % 8 = 0

/-! ### The closed form of an accepted ABSORB (R120) -/

/-- `p`, from `pendingBytes` on entry and the message length: under `STRICT`, `max(0, ceil((s + L)/r) - 1)`; under
`NONSTRICT`, `floor((s + L)/r)`. -/
def closedPerms (boundary : AbsorbBoundary) (rate pending length : Nat) : Nat :=
  match boundary with
  | .strict => (pending + length + rate - 1) / rate - 1
  | .nonstrict => (pending + length) / rate

/-- `pendingBytes` afterwards: `s + L - p*r` under `STRICT`, `(s + L) mod r` under `NONSTRICT`. -/
def closedPending (boundary : AbsorbBoundary) (rate pending length : Nat) : Nat :=
  match boundary with
  | .strict => pending + length - closedPerms .strict rate pending length * rate
  | .nonstrict => (pending + length) % rate

/-! ### Sequences of requests -/

/-- Instructions run one after another, stopping at the first refusal (R51). -/
def serve : List Instr → State → Result
  | [], s => .next s
  | i :: is, s =>
    match exec i s with
    | .next t => serve is t
    | .fault f => .fault f
    | .refused why => .refused why

/-- `n` steps, stopping at the first refusal. -/
def runSteps : Nat → State → Result
  | 0, s => .next s
  | n + 1, s =>
    match step s with
    | .next t => runSteps n t
    | .fault f => .fault f
    | .refused why => .refused why

/-- The inputs that request these instructions, in order. -/
def requestsFor (is : List Instr) : List Input := is.map fun i => .request (encode i)

/-! ### The padded sponge construction

The sponge over Keccak-f[1600] as FIPS-202 lays it out (general knowledge, 93_implementation_defined.md G8): the message,
a domain byte, zeros to a whole number of blocks, and the top bit of the last byte flipped. -/

/-- Zero bytes to the next multiple of the rate. -/
def blockZeros (rate length : Nat) : Nat := (rate - length % rate) % rate

/-- Message, domain byte and zeros: a whole, positive number of rate blocks. -/
def domainPadded (rate : Nat) (message : List Byte) (domain : Byte) : List Byte :=
  message ++ domain :: List.replicate (blockZeros rate (message.length + 1)) 0#8

/-- XOR each whole rate block of `bytes` into the state and permute before the next one; `blocks` counts the blocks before
the last, which is XORed in and not permuted. -/
def xorBlocks (rate : Nat) : Nat → List Byte → Lanes → Lanes
  | 0, bytes, a => xorBytes a 0 bytes
  | blocks + 1, bytes, a => xorBlocks rate blocks (bytes.drop rate) (permute (xorBytes a 0 (bytes.take rate)))

/-- The state after the padded message, the last block's final `0x80` included, before the first squeezing permutation. -/
def paddedState (rate : Nat) (message : List Byte) (domain : Byte) : Lanes :=
  let padded := domainPadded rate message domain
  xorStateByte (xorBlocks rate (padded.length / rate - 1) padded zeroLanes) (rate - 1) 0x80#8

end Sys2Proof.Machine
end

