-- ==== Sys2Proof/Certificates/Slice0/Obligations.lean ====
section
/-! DEFINITION. The statements for the provers. -/

open Sys2Proof Sys2Proof.Machine

/-! ### Requests and decoding (30_encoding.md) -/

/-- R60 to R63, R65, R73: decoding and encoding are inverse on well-formed instructions, so every request that spells an
instruction spells exactly one, and no operand bit or message byte is dropped. -/
def Obligations.DecodeAndEncodeAreInverse : Prop :=
  ∀ (q : Request) (i : Instr), decode q = .ok i ↔ i.WellFormed ∧ encode i = q

/-- R73: the decode function, its fields written as arithmetic on the command word as a number (`cmd[3:0]`, `cmd[7:4]`,
`cmd[63:8]`). -/
def Obligations.DecodeFollowsDecodingSummary : Prop :=
  ∀ q : Request,
    (q.cmd.toNat / 16 % 16 ≠ 0 → decode q = .error .reservedField)
    ∧ (q.cmd.toNat / 16 % 16 = 0 → q.cmd.toNat % 16 = 1 →
        decode q = if q.buf = [] then .ok (.init (BitVec.ofNat 56 (q.cmd.toNat / 256))) else .error .bufferMismatch)
    ∧ (q.cmd.toNat / 16 % 16 = 0 → q.cmd.toNat % 16 = 2 →
        decode q = if q.buf.length = q.cmd.toNat / 256 then .ok (.absorb q.buf) else .error .bufferMismatch)
    ∧ (q.cmd.toNat / 16 % 16 = 0 → q.cmd.toNat % 16 = 3 →
        decode q = if q.buf = [] then .ok (.squeeze (BitVec.ofNat 56 (q.cmd.toNat / 256))) else .error .bufferMismatch)
    ∧ (q.cmd.toNat / 16 % 16 = 0 → q.cmd.toNat % 16 = 0 ∨ 4 ≤ q.cmd.toNat % 16 →
        decode q = .error .reservedOpcode)

/-- Sanity: command words written out from R60 and R61 (95_test_vectors.md V-E1) decode to what they stand for. -/
def Obligations.WrittenCommandWordsDecode : Prop :=
  decode ⟨0x0000000000008801#64, []⟩ = .ok (.init 136#56)
  ∧ decode ⟨0x0000000000000001#64, []⟩ = .ok (.init 0#56)
  ∧ decode ⟨0x0000000000000502#64, [1#8, 2#8, 3#8, 4#8, 5#8]⟩ = .ok (.absorb [1#8, 2#8, 3#8, 4#8, 5#8])
  ∧ decode ⟨0xFFFFFFFFFFFFFF03#64, []⟩ = .ok (.squeeze (BitVec.allOnes 56))

/-- R70: `absorb.pad` expands to one ABSORB whose message is the bytes, the domain byte and the least number of zero
bytes, 0 to 7, that makes the length a multiple of 8; and the request it assembles to decodes to that ABSORB, as long as
the operand field can hold the length. -/
def Obligations.AbsorbPadExpandsToLeastPadding : Prop :=
  ∀ (message : List Byte) (domain : Byte),
    (∃ zeros, zeros ≤ 7 ∧ padMessage message domain = message ++ [domain] ++ List.replicate zeros 0#8)
    ∧ (padMessage message domain).length % 8 = 0
    ∧ ((padMessage message domain).length < 2 ^ 56 →
        (assemble (.absorbPad message domain)).map decode = some (.ok (.absorb (padMessage message domain))))

/-! ### The step -/

/-- A step runs the decoded instruction: with no refusal mark and a request first among the inputs that decodes to `i`,
the step is `exec i` at the state with that request taken (R51, R73).  The list of inputs is the model's form of the request
sequence (log entry 7). -/
def Obligations.StepRunsDecodedRequest : Prop :=
  ∀ (s : State) (q : Request) (rest : List Input) (i : Instr),
    s.refusedMark = none → s.inputs = .request q :: rest → decode q = .ok i →
      step s = exec i { s with inputs := rest }

/-- R168, R169: a request that spells no operation is refused by the decoder's name for it, before any other check. -/
def Obligations.StepRefusesUndecodableRequest : Prop :=
  ∀ (s : State) (q : Request) (rest : List Input) (why : DecodeRefusal),
    s.refusedMark = none → s.inputs = .request q :: rest → decode q = .error why →
      step s = .refused (.encoding why)

/-- The bits of an opcode-table row, stored where the machine takes its next request, run as the instruction the decoder
reads from them (log entry 5: requests come from outside, and this stands for handing one over). -/
def Obligations.FetchedTableWordRuns : Prop :=
  ∀ (s : State) (nbits w : Nat) (i : Instr),
    s.refusedMark = none → decodeTableWord nbits w = some i → step (s.withFetchWord nbits w) = exec i s

/-- R177: between requests the core is idle and keeps all its state.  "Between requests" is an empty list of inputs, the
model's form (log entry 7). -/
def Obligations.IdleCoreKeepsItsState : Prop :=
  ∀ s : State, s.refusedMark = none → s.inputs = [] → step s = .next s

/-- R34, R180, R181: a hardware reset between requests leaves the core unconfigured, so that every ABSORB and SQUEEZE is
refused until an INIT; requests waiting, responses sent and parameters are the port's and stay (the reset as an input is
the model's form, log entry 8). -/
def Obligations.HardwareResetUnconfigures : Prop :=
  ∀ (s : State) (rest : List Input), s.refusedMark = none → s.inputs = .hardwareReset :: rest →
    ∃ t, step s = .next t ∧ t.sponge.configured = false
      ∧ t.inputs = rest ∧ t.responses = s.responses ∧ t.refusedMark = none ∧ t.params = s.params
      ∧ (∀ message, exec (.absorb message) t = .refused .unconfigured)
      ∧ (∀ nblocks, exec (.squeeze nblocks) t = .refused .unconfigured)

/-- R165: the refusal mark is sticky.  A refusal puts it on the state, and no later step clears it, whatever inputs are
waiting, an INIT among them; a marked state answers no request.  (A refusal is an outcome of `step`, and `advance` sets the
mark: log entry 6.) -/
def Obligations.RefusalMarkIsSticky : Prop :=
  ∀ (s : State) (why : Refusal),
    (step s = .refused why → (advance s).refusedMark = some why)
    ∧ (s.refusedMark = some why → ∀ inputs : List Input,
        step { s with inputs := inputs } = .refused why
        ∧ ∀ n, (advance^[n] { s with inputs := inputs }).refusedMark = some why
            ∧ (advance^[n] { s with inputs := inputs }).responses = s.responses)

/-- R51: the requests waiting are served one at a time, in order, each from the state the one before it left.
(The list of waiting requests is the model's form of the request sequence, log entry 7.) -/
def Obligations.WaitingRequestsAreServedInOrder : Prop :=
  ∀ (is : List Instr) (s : State),
    s.refusedMark = none → s.inputs = requestsFor is → (∀ i ∈ is, i.WellFormed) →
      runSteps is.length s = serve is { s with inputs := [] }

/-! ### Reset and the invariant (10_state.md) -/

/-- R34: `configured` is false after reset, and nothing but INIT is accepted then.  (The other fields are unspecified by
R34 and no clause names one.) -/
def Obligations.ResetIsUnconfigured : Prop :=
  State.reset.sponge.configured = false ∧ State.reset.refusedMark = none
    ∧ (∀ message, exec (.absorb message) State.reset = .refused .unconfigured)
    ∧ (∀ nblocks, exec (.squeeze nblocks) State.reset = .refused .unconfigured)
    ∧ (∀ rateBytes, ∃ t, exec (.init rateBytes) State.reset = .next t)

/-- The invariant of the control state holds at reset. -/
def Obligations.ResetMeetsInvariant : Prop := State.reset.Inv

/-- R25, R111, R123: every step keeps the invariant of the control state, from every state that has it: with a valid rate
`pendingBytes` is a multiple of 8 in its range, and 0 while Squeezing; with an invalid rate the sponge is as INIT left
it. -/
def Obligations.StepKeepsInvariant : Prop :=
  ∀ s t : State, s.Inv → step s = .next t → t.Inv

/-- R34: what reset leaves unspecified cannot be observed.  Two states that differ only in an unconfigured sponge and the
operation counter answer every instruction alike, and after it differ in the counter alone. -/
def Obligations.UnspecifiedResetStateIsUnobservable : Prop :=
  ∀ (i : Instr) (s : State) (other : Sponge) (counter : BitVec 64),
    s.sponge.configured = false → other.configured = false →
      match exec i s, exec i { s with sponge := other, opCounter := counter } with
      | .next t, .next u => u = { t with opCounter := counter }
      | .refused why, .refused why' => why = why'
      | _, _ => False

/-- R32: no response carries the operation counter and no rule reads it: with another counter value every instruction
does the same, the counter apart.  (That the model keeps it is its choice: log entry 13.) -/
def Obligations.OpCounterIsUnobservable : Prop :=
  ∀ (i : Instr) (s : State) (counter : BitVec 64),
    exec i { s with opCounter := counter } =
      match exec i s with
      | .next t => .next { t with opCounter := counter + (t.opCounter - s.opCounter) }
      | .fault f => .fault f
      | .refused why => .refused why

/-- R32, R35: the operation counter goes up by one, modulo `2^64`, for an ABSORB or SQUEEZE that completes with status OK,
and is otherwise unchanged.  (R32 and D12 let a model omit the counter; that this one keeps it is its choice: log entry 13.) -/
def Obligations.OpCounterCountsCompletedSpongeOps : Prop :=
  ∀ (i : Instr) (s t : State) (r : Response),
    exec i s = .next t → t.responses = s.responses ++ [r] →
      t.opCounter = if i.usesSponge = true ∧ r.status = 0#2 then s.opCounter + 1#64 else s.opCounter

/-! ### The state machine (41_sponge.md section 4, 60_exceptions.md) -/

/-- R166, R167, R169: an instruction is refused exactly when it is an ABSORB or SQUEEZE issued before any INIT
(`Unconfigured`), or while the rate is not a multiple of 8 from 8 to 200 (`InvalidRate`), in that order; in every other
case it gets a response. -/
def Obligations.RefusedExactlyWhenNotAdmitted : Prop :=
  ∀ (i : Instr) (s : State),
    (i.usesSponge = true → s.sponge.configured = false → exec i s = .refused .unconfigured)
    ∧ (i.usesSponge = true → s.sponge.configured = true →
        ¬ (s.sponge.rateBytes.toNat % 8 = 0 ∧ 8 ≤ s.sponge.rateBytes.toNat ∧ s.sponge.rateBytes.toNat ≤ 200) →
          exec i s = .refused .invalidRate)
    ∧ (i.usesSponge = false ∨ (s.sponge.configured = true
          ∧ s.sponge.rateBytes.toNat % 8 = 0 ∧ 8 ≤ s.sponge.rateBytes.toNat ∧ s.sponge.rateBytes.toNat ≤ 200) →
        ∃ t r, exec i s = .next t ∧ t.responses = s.responses ++ [r])

/-- R129: where each instruction that is not refused leaves the state machine. -/
def Obligations.PhaseTransitions : Prop :=
  ∀ (i : Instr) (s t : State), exec i s = .next t →
    t.sponge.configured = true
    ∧ t.sponge.phase =
        match i with
        | .init _ => .absorbing
        | .absorb _ => s.sponge.phase
        | .squeeze _ => .squeezing

/-- R26, R112: only INIT writes `rateBytes`, and only INIT leaves Squeezing. -/
def Obligations.OnlyInitReconfigures : Prop :=
  ∀ (i : Instr) (s t : State), exec i s = .next t →
    t.sponge.rateBytes ≠ s.sponge.rateBytes ∨ (s.sponge.phase = .squeezing ∧ t.sponge.phase = .absorbing) →
      ∃ rateBytes, i = .init rateBytes

/-- The frame of every instruction: the inputs waiting, the refusal mark and the parameters are unchanged; exactly one
response is added at the end (R67), its status one of 0, 1 and 2 (R67, I14); and the draw counter moves only for an
ABSORB whose two checks both fail (R163). -/
def Obligations.EveryInstructionFrame : Prop :=
  ∀ (i : Instr) (s t : State), exec i s = .next t →
    t.inputs = s.inputs ∧ t.refusedMark = s.refusedMark ∧ t.params = s.params
    ∧ (∃ r, t.responses = s.responses ++ [r] ∧ r.status ≠ 3#2)
    ∧ (t.draws = s.draws
        ∨ (t.draws = s.draws + 1 ∧ s.sponge.phase = .squeezing
            ∧ ∃ message, i = .absorb message ∧ message.length % 8 ≠ 0))

/-- R14, R164, R172: an error response is precise and not sticky: the sponge and the operation counter are exactly what
they were, and only an ABSORB gets one. -/
def Obligations.ErrorResponsesChangeNoState : Prop :=
  ∀ (i : Instr) (s t : State) (kind : ErrorKind),
    exec i s = .next t → t.responses = s.responses ++ [.error kind] →
      t.sponge = s.sponge ∧ t.opCounter = s.opCounter ∧ ∃ message, i = .absorb message

/-- R183, R166, R167: after an INIT with a valid rate, no ABSORB or SQUEEZE is refused, in any order. -/
def Obligations.NothingIsRefusedAfterValidInit : Prop :=
  ∀ (s : State) (rateBytes : Operand) (is : List Instr),
    rateBytes.toNat % 8 = 0 → 8 ≤ rateBytes.toNat → rateBytes.toNat ≤ 200 → (∀ i ∈ is, i.usesSponge = true) →
      ∃ t, serve (.init rateBytes :: is) s = .next t ∧ t.responses.length = s.responses.length + is.length + 1

/-- R183: a caller that keeps the boot order (INIT with a valid rate, whole-word ABSORBs, then SQUEEZEs) gets an OK
response to every request. -/
def Obligations.BootOrderGetsOnlyOkResponses : Prop :=
  ∀ (s : State) (rateBytes : Operand) (messages : List (List Byte)) (counts : List Operand),
    rateBytes.toNat % 8 = 0 → 8 ≤ rateBytes.toNat → rateBytes.toNat ≤ 200 →
    (∀ message ∈ messages, message.length % 8 = 0) →
      ∃ t added, serve (.init rateBytes :: (messages.map .absorb ++ counts.map .squeeze)) s = .next t
        ∧ t.responses = s.responses ++ added ∧ added.length = 1 + messages.length + counts.length
        ∧ ∀ r ∈ added, r.status = 0#2

/-! ### INIT -/

/-- R110, R111, R112, R35: INIT completes in every state and for every operand, valid rate or not; it clears the lanes,
records the operand, sets the control state and reports no permutation and the parameter `INIT_COST`; the operation
counter and everything else stay. -/
def Obligations.InitCompletesInEveryState : Prop :=
  ∀ (rateBytes : Operand) (s : State), ∃ lanes : Lanes,
    (∀ k, k < 25 → lane lanes k = 0#64)
    ∧ exec (.init rateBytes) s = .next { s with
        sponge := { lanes := lanes, rateBytes := rateBytes, phase := .absorbing, pendingBytes := 0, configured := true },
        responses := s.responses ++ [.ok 0 s.params.initCost []] }

/-! ### ABSORB -/

/-- R115, R120, R141: an accepted ABSORB completes: the permutation count and `pendingBytes` are R120's closed form under
either boundary test, the cost is `2 * ceil(len/8) + 26 * p + 4`, there is no output, and nothing but the lanes,
`pendingBytes`, the operation counter and the response changes.  (The counter: R32, kept by the model's choice, log
entry 13.) -/
def Obligations.AbsorbCompletes : Prop :=
  ∀ (message : List Byte) (s : State), s.Inv → s.AcceptsAbsorb message →
    ∃ (lanes : Lanes) (p : Nat),
      p = closedPerms s.params.absorbBoundary s.sponge.rateBytes.toNat s.sponge.pendingBytes message.length
      ∧ exec (.absorb message) s = .next { s with
          sponge := { s.sponge with
            lanes := lanes,
            pendingBytes := closedPending s.params.absorbBoundary s.sponge.rateBytes.toNat s.sponge.pendingBytes
              message.length },
          opCounter := s.opCounter + 1#64,
          responses := s.responses ++ [.ok p (2 * ((message.length + 7) / 8) + 26 * p + 4) []] }

/-- R118, R119, R44: an accepted ABSORB that completes no block XORs its 8-byte words, read little-endian, into the lanes
from `pendingBytes/8` on, one word a lane, and changes no other lane, the capacity lanes among them. -/
def Obligations.AbsorbWithinBlockXorsWordsIntoLanes : Prop :=
  ∀ (message : List Byte) (s t : State), s.Inv → s.AcceptsAbsorb message →
    more s.params.absorbBoundary s.sponge.rateBytes.toNat s.sponge.pendingBytes message.length = false →
    exec (.absorb message) s = .next t →
      ∀ k, k < 25 →
        lane t.sponge.lanes k =
          if s.sponge.pendingBytes / 8 ≤ k ∧ k < (s.sponge.pendingBytes + message.length) / 8 then
            lane s.sponge.lanes k
              ^^^ littleEndian ((message.drop (8 * (k - s.sponge.pendingBytes / 8))).take 8)
          else lane s.sponge.lanes k

/-- R116, R117: an accepted ABSORB whose message goes past the block fills the block with its first `rateBytes -
pendingBytes` bytes, permutes, and goes on as an ABSORB of the other bytes on the permuted lanes with nothing pending. -/
def Obligations.AbsorbPastBlockPermutesAndGoesOn : Prop :=
  ∀ (message : List Byte) (s t : State), s.Inv → s.AcceptsAbsorb message →
    more s.params.absorbBoundary s.sponge.rateBytes.toNat s.sponge.pendingBytes message.length = true →
    exec (.absorb message) s = .next t →
      let n := s.sponge.rateBytes.toNat - s.sponge.pendingBytes
      ∃ u, exec (.absorb (message.drop n))
          { s with sponge := { s.sponge with
              lanes := permute (xorBytes s.sponge.lanes s.sponge.pendingBytes (message.take n)), pendingBytes := 0 } }
            = .next u
        ∧ t.sponge = u.sponge

/-- R113, R161: an admitted ABSORB whose length is not a multiple of 8 gets InvalidLength, code 1, and changes no state. -/
def Obligations.AbsorbBadLengthGetsInvalidLength : Prop :=
  ∀ (message : List Byte) (s : State), s.sponge.Admits → s.sponge.phase = .absorbing → message.length % 8 ≠ 0 →
    (Response.error .invalidLength).status = 1#2
    ∧ exec (.absorb message) s = .next { s with responses := s.responses ++ [.error .invalidLength] }

/-- R114, R162: an admitted ABSORB of whole words while Squeezing gets InvalidState, code 2, and changes no
state. -/
def Obligations.AbsorbWhileSqueezingGetsInvalidState : Prop :=
  ∀ (message : List Byte) (s : State), s.sponge.Admits → s.sponge.phase = .squeezing → message.length % 8 = 0 →
    (Response.error .invalidState).status = 2#2
    ∧ exec (.absorb message) s = .next { s with responses := s.responses ++ [.error .invalidState] }

/-- R163: an admitted ABSORB with both faults gets one of the two codes, as a draw, and changes no state of the core; the
draw counter is the model's own (log entry 4). -/
def Obligations.AbsorbBothErrorsGetsEitherCode : Prop :=
  ∀ (message : List Byte) (s : State), s.sponge.Admits → s.sponge.phase = .squeezing → message.length % 8 ≠ 0 →
    ∃ kind, (kind = .invalidLength ∨ kind = .invalidState)
      ∧ exec (.absorb message) s = .next { s with
          draws := s.draws + 1, responses := s.responses ++ [.error kind] }

/-- R122, R145: absorbing a message in one ABSORB or in two leaves the same sponge; the permutation counts add up, and the
two calls cost one `ISSUE_COST` more than the one. -/
def Obligations.AbsorbIsIncremental : Prop :=
  ∀ (first second : List Byte) (s : State), s.Inv → s.AcceptsAbsorb first → second.length % 8 = 0 →
    ∃ (t₁ t₂ t : State) (p₁ p₂ c₁ c₂ c : Nat),
      exec (.absorb first) s = .next t₁ ∧ exec (.absorb second) t₁ = .next t₂
      ∧ exec (.absorb (first ++ second)) s = .next t
      ∧ t.sponge = t₂.sponge
      ∧ t₁.responses = s.responses ++ [.ok p₁ c₁ []] ∧ t₂.responses = t₁.responses ++ [.ok p₂ c₂ []]
      ∧ t.responses = s.responses ++ [.ok (p₁ + p₂) c []]
      ∧ c₁ + c₂ = c + 4

/-- R33: the response to an ABSORB shows nothing of the lanes or of the message's bytes: with other lanes and another
message of the same length the responses are the same. -/
def Obligations.AbsorbResponseShowsNoData : Prop :=
  ∀ (message other : List Byte) (lanes : Lanes) (s : State), message.length = other.length →
    match exec (.absorb message) s, exec (.absorb other) { s with sponge := { s.sponge with lanes := lanes } } with
    | .next t, .next u => t.responses = u.responses
    | .refused why, .refused why' => why = why'
    | _, _ => False

/-! ### SQUEEZE -/

/-- R123: the first SQUEEZE after an INIT flips bit 63 of lane `rateBytes/8 - 1`, sets `pendingBytes` to 0 and the phase
to Squeezing, and runs no permutation for it; with `nblocks = 0` that is all it does (R128), at cost 4,
but for the operation counter, which goes up by one (R32, D12; kept by the model's choice, log entry 13). -/
def Obligations.FirstSqueezeFinalizes : Prop :=
  ∀ s : State, s.sponge.Admits → s.sponge.phase = .absorbing →
    ∃ lanes : Lanes,
      (∀ k, k < 25 → lane lanes k =
        if k = s.sponge.rateBytes.toNat / 8 - 1 then lane s.sponge.lanes k ^^^ 0x8000000000000000#64
        else lane s.sponge.lanes k)
      ∧ exec (.squeeze 0#56) s = .next { s with
          sponge := { s.sponge with lanes := lanes, pendingBytes := 0, phase := .squeezing },
          opCounter := s.opCounter + 1#64, responses := s.responses ++ [.ok 0 4 []] }

/-- R123, R124, R126, R142: an admitted SQUEEZE completes, first call or later.  Finalization happens exactly when the
phase was Absorbing; the lanes are those it leaves, permuted `nblocks` times; the response reports `nblocks` permutations,
the cost `ceil(len/8) + 26 * nblocks + 4` for `len = nblocks * rateBytes`, and `len` bytes of output; the phase is
Squeezing.  The operation counter goes up by one (R32, D12; kept by the model's choice, log entry 13), and nothing else
changes. -/
def Obligations.SqueezeCompletes : Prop :=
  ∀ (nblocks : Operand) (s : State), s.sponge.Admits →
    ∃ (start : Lanes) (out : List Byte),
      (∀ k, k < 25 → lane start k =
        if s.sponge.phase = .absorbing ∧ k = s.sponge.rateBytes.toNat / 8 - 1 then
          lane s.sponge.lanes k ^^^ 0x8000000000000000#64
        else lane s.sponge.lanes k)
      ∧ out.length = nblocks.toNat * s.sponge.rateBytes.toNat
      ∧ exec (.squeeze nblocks) s = .next { s with
          sponge := { s.sponge with
            lanes := permute^[nblocks.toNat] start,
            pendingBytes := if s.sponge.phase = .absorbing then 0 else s.sponge.pendingBytes,
            phase := .squeezing },
          opCounter := s.opCounter + 1#64,
          responses := s.responses ++
            [.ok nblocks.toNat
              ((nblocks.toNat * s.sponge.rateBytes.toNat + 7) / 8 + 26 * nblocks.toNat + 4) out] }

/-- R123, R128: a SQUEEZE with `nblocks = 0` that finds the phase Squeezing changes nothing of the sponge and answers
`OK(0, 4)` with no output; the operation counter, which R128 does not speak of, goes up by one (R32, D12; kept by the
model's choice, log entry 13). -/
def Obligations.LaterEmptySqueezeChangesNothing : Prop :=
  ∀ s : State, s.sponge.Admits → s.sponge.phase = .squeezing →
    exec (.squeeze 0#56) s = .next { s with
      opCounter := s.opCounter + 1#64, responses := s.responses ++ [.ok 0 4 []] }

/-- R125, R42: byte `b * rateBytes + 8 * k + j` of the output is byte `j`, least significant first, of lane `k` right after
the `(b+1)`-th permutation of the call, counted from the lanes that finalization (on the first call) leaves. -/
def Obligations.SqueezeOutputBytes : Prop :=
  ∀ (nblocks : Operand) (s t : State) (start : Lanes) (perms cost : Nat) (out : List Byte),
    (∀ k, k < 25 → lane start k =
      if s.sponge.phase = .absorbing ∧ k = s.sponge.rateBytes.toNat / 8 - 1 then
        lane s.sponge.lanes k ^^^ 0x8000000000000000#64
      else lane s.sponge.lanes k) →
    exec (.squeeze nblocks) s = .next t → t.responses = s.responses ++ [.ok perms cost out] →
      out.length = nblocks.toNat * s.sponge.rateBytes.toNat
      ∧ ∀ b k j, b < nblocks.toNat → k < s.sponge.rateBytes.toNat / 8 → j < 8 →
        out[b * s.sponge.rateBytes.toNat + 8 * k + j]? =
          some (BitVec.ofNat 8 ((lane (permute^[b + 1] start) k).toNat / 256 ^ j))

/-- R127, R145: `squeeze a` and then `squeeze b` give, one after the other, the bytes and the final sponge of one `squeeze
(a + b)`; the permutation counts add up, and the two calls cost one `ISSUE_COST` more than the one. -/
def Obligations.SqueezeStreams : Prop :=
  ∀ (a b c : Operand) (s : State), s.sponge.Admits → c.toNat = a.toNat + b.toNat →
    ∃ (t₁ t₂ t : State) (c₁ c₂ c₃ : Nat) (out₁ out₂ : List Byte),
      exec (.squeeze a) s = .next t₁ ∧ exec (.squeeze b) t₁ = .next t₂ ∧ exec (.squeeze c) s = .next t
      ∧ t.sponge = t₂.sponge
      ∧ t₁.responses = s.responses ++ [.ok a.toNat c₁ out₁]
      ∧ t₂.responses = t₁.responses ++ [.ok b.toNat c₂ out₂]
      ∧ t.responses = s.responses ++ [.ok (a.toNat + b.toNat) c₃ (out₁ ++ out₂)]
      ∧ c₁ + c₂ = c₃ + 4

/-! ### Counts and costs (42_timing.md) -/

/-- R146: every cost an ABSORB or SQUEEZE reports fits a 64-bit unsigned field: below `2^59` for an ABSORB, below `2^62`
for a SQUEEZE. -/
def Obligations.ReportedCostsFitSixtyFourBits : Prop :=
  ∀ (i : Instr) (s t : State) (perms cost : Nat) (out : List Byte),
    s.Inv → i.WellFormed → i.usesSponge = true → exec i s = .next t →
    t.responses = s.responses ++ [.ok perms cost out] →
      cost < match i with
        | .init _ => 0
        | .absorb _ => 2 ^ 59
        | .squeeze _ => 2 ^ 62

/-- R192: every request ends after a bounded number of permutations: an ABSORB runs at most `(pendingBytes + |m|) /
rateBytes + 1`, a SQUEEZE exactly `nblocks`, an INIT none. -/
def Obligations.PermutationCountsAreBounded : Prop :=
  ∀ (i : Instr) (s t : State) (perms cost : Nat) (out : List Byte),
    s.Inv → exec i s = .next t → t.responses = s.responses ++ [.ok perms cost out] →
      match i with
      | .init _ => perms = 0
      | .absorb message => perms ≤ (s.sponge.pendingBytes + message.length) / s.sponge.rateBytes.toNat + 1
      | .squeeze nblocks => perms = nblocks.toNat

/-! ### The state image (20_memory.md) -/

/-- R41: byte `8k` of the state image is the least significant byte of lane `k` and byte `8k + 7` its most significant:
each lane is its eight bytes read little-endian. -/
def Obligations.StateImageIsLittleEndian : Prop :=
  ∀ (a : Lanes) (k : Nat), k < 25 →
    lane a k = littleEndian [stateByte a (8 * k), stateByte a (8 * k + 1), stateByte a (8 * k + 2),
      stateByte a (8 * k + 3), stateByte a (8 * k + 4), stateByte a (8 * k + 5), stateByte a (8 * k + 6),
      stateByte a (8 * k + 7)]

/-- R43: byte `i` of a run XORed in from byte `start` on lands in `StateByte(start + i)`, and no other byte of the state
image changes. -/
def Obligations.XorPlacesEachByteInOrder : Prop :=
  ∀ (a : Lanes) (start : Nat) (bytes : List Byte), start + bytes.length ≤ 200 →
    ∀ j, j < 200 →
      stateByte (xorBytes a start bytes) j =
        if start ≤ j ∧ j < start + bytes.length then stateByte a j ^^^ bytes.getD (j - start) 0#8
        else stateByte a j

/-! ### The permutation (40_permutation.md) -/

/-- R83: theta, coordinate by coordinate (the spec's general knowledge G1, log entry 9). -/
def Obligations.ThetaXorsNeighbourParities : Prop :=
  ∀ (a : Lanes) (c d : Nat → Lane),
    (∀ x, x < 5 → c x = lane a x ^^^ lane a (x + 5) ^^^ lane a (x + 10) ^^^ lane a (x + 15) ^^^ lane a (x + 20)) →
    (∀ x, x < 5 → d x = c ((x + 4) % 5) ^^^ (c ((x + 1) % 5)).rotateLeft 1) →
      ∀ x y, x < 5 → y < 5 → lane (thetaStep a) (x + 5 * y) = lane a (x + 5 * y) ^^^ d x

/-- R85: rho rotates each lane left by its offset, bit 63 coming back in at bit 0; lane 0 is unchanged. -/
def Obligations.RhoRotatesLanesLeft : Prop :=
  ∀ a : Lanes, lane (rhoStep a) 0 = lane a 0
    ∧ ∀ i, i < 25 → lane (rhoStep a) i = (lane a i).rotateLeft (rhoOffsets.getD i 0)

/-- R84: the table of offsets against the published generator: `(t+1)(t+2)/2 mod 64` along the orbit of `(1, 0)`, and 0 for
lane 0 (the generator is general knowledge G2; the table governs). -/
def Obligations.RhoOffsetsFollowTheOrbit : Prop :=
  rhoOffsets.length = 25 ∧ rhoOffsets.getD 0 64 = 0
  ∧ ∀ t, t < 24 →
      let at' := (fun p : Nat × Nat => (p.2, (2 * p.1 + 3 * p.2) % 5))^[t] (1, 0)
      rhoOffsets.getD (at'.1 + 5 * at'.2) 64 = (t + 1) * (t + 2) / 2 % 64

/-- R86: pi moves the lane at `(x, y)` to `(y, (2x + 3y) mod 5)`, unchanged in value (`x` the column: G3, log entry 9). -/
def Obligations.PiMovesEachLane : Prop :=
  ∀ (a : Lanes) (x y : Nat), x < 5 → y < 5 →
    lane (piStep a) (y + 5 * ((2 * x + 3 * y) % 5)) = lane a (x + 5 * y)

/-- R87: chi, every output from the step's input (direction and simultaneity: G4, log entry 9). -/
def Obligations.ChiCombinesRows : Prop :=
  ∀ (a : Lanes) (x y : Nat), x < 5 → y < 5 →
    lane (chiStep a) (x + 5 * y) =
      lane a (x + 5 * y) ^^^ (~~~ lane a ((x + 1) % 5 + 5 * y) &&& lane a ((x + 2) % 5 + 5 * y))

/-- R88: iota XORs the round constant into lane 0 and leaves the other 24 lanes. -/
def Obligations.IotaChangesLaneZeroOnly : Prop :=
  ∀ (a : Lanes) (ir k : Nat), ir < 24 → k < 25 →
    lane (iotaStep a ir) k = if k = 0 then lane a 0 ^^^ roundConstants.getD ir 0#64 else lane a k

/-- R89: the round constants against the published generator, the LFSR of `x^8 + x^6 + x^5 + x^4 + 1`: bit `2^j - 1` of
`RC[ir]` is its output `j + 7*ir`, and every other bit is 0 (general knowledge G5 and G6, log entry 9). -/
def Obligations.RoundConstantsFollowTheLfsr : Prop :=
  roundConstants.length = 24
  ∧ ∀ ir, ir < 24 → ∀ bit, bit < 64 →
      (roundConstants.getD ir 0#64).getLsbD bit =
        (List.range 7).any fun j =>
          bit == 2 ^ j - 1
            && ((fun r : Nat => if 128 ≤ r then (2 * r) ^^^ 0x171 else 2 * r)^[j + 7 * ir] 1) % 2 == 1

/-- R81, R90, R91, R98: `Permute()` is the 24 rounds in order, each theta, rho, pi, chi, iota; fusing two rounds changes
nothing. -/
def Obligations.PermuteIsTwelveRoundPairs : Prop :=
  ∀ a : Lanes,
    permute a = (List.range 12).foldl
      (fun b k =>
        iotaStep (chiStep (piStep (rhoStep (thetaStep
          (iotaStep (chiStep (piStep (rhoStep (thetaStep b)))) (2 * k)))))) (2 * k + 1)) a

/-- R92: `Permute()` is a bijection on 1600-bit states: no two inputs give the same output, and every state is an
output. -/
def Obligations.PermuteIsBijective : Prop := Function.Bijective permute

/-! ### The whole engine -/

/-- R184, R185, R123, R128: under `STRICT`, a caller that keeps the boot order and pads with `absorb.pad` gets the sponge
construction of the padded message, for every valid rate, message, domain byte and block count, a message that ends on a
block boundary among them.  The construction measured against is general knowledge (G8, log entry 16). -/
def Obligations.StrictEngineIsPaddedSponge : Prop :=
  ∀ (s : State) (rateBytes nblocks : Operand) (message : List Byte) (domain : Byte),
    s.params.absorbBoundary = .strict →
    rateBytes.toNat % 8 = 0 → 8 ≤ rateBytes.toNat → rateBytes.toNat ≤ 200 →
      ∃ t before cost, serve [.init rateBytes, .absorb (padMessage message domain), .squeeze nblocks] s = .next t
        ∧ before.length = 2
        ∧ t.responses = s.responses ++ before ++
            [.ok nblocks.toNat cost ((List.range nblocks.toNat).flatMap fun b =>
              rateBlock rateBytes.toNat (permute^[b + 1] (paddedState rateBytes.toNat message domain)))]
end

