-- ==== Sys2Proof/Laws/Bytes.lean ====
section
/-! SUPPORT. What the lane and byte operations of Machine/Bytes.lean do, once each. -/

namespace Sys2Proof.Machine

/-- `lane` at a lane of the array is the array's element. -/
theorem lane_eq_getElem (a : Lanes) (k : Nat) (h : k < 25) : lane a k = a[k] := by
  simp [lane, List.getD_eq_getElem?_getD, h]

/-- Past lane 24 there is nothing. -/
theorem lane_of_ge (a : Lanes) (k : Nat) (h : 25 ≤ k) : lane a k = 0#64 := by
  simp [lane, List.getD_eq_getElem?_getD, h]

/-- Two lane arrays with the same 25 lanes are the same. -/
theorem lanes_ext {a b : Lanes} (h : ∀ k, k < 25 → lane a k = lane b k) : a = b := by
  apply Vector.ext
  intro k hk
  simpa [lane_eq_getElem _ _ hk] using h k hk

@[simp] theorem lane_zeroLanes (k : Nat) : lane zeroLanes k = 0#64 := by
  by_cases h : k < 25
  · simp [lane_eq_getElem _ _ h, zeroLanes]
  · exact lane_of_ge _ _ (by omega)

/-- What reading a lane after a write gives. -/
theorem lane_setLane (a : Lanes) (k : Nat) (v : Lane) (j : Nat) :
    lane (setLane a k v) j = if j = k ∧ k < 25 then v else lane a j := by
  by_cases hj : j < 25
  · rw [lane_eq_getElem _ _ hj, lane_eq_getElem _ _ hj]
    simp only [setLane, Vector.getElem_setIfInBounds]
    by_cases hjk : k = j
    · subst hjk; simp [hj]
    · simp [hjk, Ne.symm hjk]
  · rw [lane_of_ge _ _ (by omega), lane_of_ge _ _ (by omega), if_neg (by omega)]

/-- What a tabulated array holds. -/
theorem lane_tabulate (f : Nat → Lane) (k : Nat) (h : k < 25) : lane (tabulate f) k = f k := by
  interval_cases k <;> rfl

@[simp] theorem laneBytes_length (v : Lane) : (laneBytes v).length = 8 := by simp [laneBytes]

@[simp] theorem getLsbD_laneByte (v : Lane) (j i : Nat) :
    (laneByte v j).getLsbD i = (decide (i < 8) && v.getLsbD (8 * j + i)) := by
  simp [laneByte]

/-- A lane's byte as arithmetic. -/
theorem laneByte_eq_ofNat (v : Lane) (j : Nat) : laneByte v j = BitVec.ofNat 8 (v.toNat / 256 ^ j) := by
  apply BitVec.eq_of_toNat_eq
  simp [laneByte, BitVec.extractLsb'_toNat, Nat.shiftRight_eq_div_pow, Nat.pow_mul]

/-- XORing a byte into the state image changes that byte alone. -/
theorem stateByte_xorStateByte (a : Lanes) (i j : Nat) (b : Byte) (hi : i < 200) :
    stateByte (xorStateByte a i b) j = if j = i then stateByte a j ^^^ b else stateByte a j := by
  unfold stateByte xorStateByte
  rw [lane_setLane]
  by_cases hl : j / 8 = i / 8
  · rw [if_pos ⟨hl, by omega⟩, hl]
    apply BitVec.eq_of_getLsbD_eq
    intro n hn
    by_cases hji : j = i
    · subst hji
      simp only [if_true, getLsbD_laneByte, BitVec.getLsbD_xor, BitVec.getLsbD_shiftLeft, BitVec.getLsbD_setWidth, hn,
        decide_true, Bool.true_and]
      have h1 : 8 * (j % 8) + n < 64 := by omega
      have h3 : n < 64 := by omega
      simp [h1, h3]
    · rw [if_neg hji]
      simp only [getLsbD_laneByte, BitVec.getLsbD_xor, BitVec.getLsbD_shiftLeft, BitVec.getLsbD_setWidth, hn,
        decide_true, Bool.true_and]
      have hne : j % 8 ≠ i % 8 := by omega
      by_cases hlt : 8 * (j % 8) + n < 8 * (i % 8)
      · simp [hlt]
      · have hge : 8 ≤ 8 * (j % 8) + n - 8 * (i % 8) := by omega
        simp [BitVec.getLsbD_of_ge b _ hge]
  · rw [if_neg (by tauto), if_neg (by intro h; exact hl (by rw [h]))]

/-- A lane that holds none of the bytes XORed in is unchanged. -/
theorem lane_xorBytes_of_outside (bs : List Byte) :
    ∀ (a : Lanes) (s k : Nat), (∀ i, s ≤ i → i < s + bs.length → i / 8 ≠ k) → lane (xorBytes a s bs) k = lane a k := by
  induction bs with
  | nil => intro a s k _; rfl
  | cons b bs ih =>
    intro a s k h
    rw [xorBytes, ih _ _ _ (fun i h1 h2 => h i (by omega) (by simp only [List.length_cons]; omega)), xorStateByte,
      lane_setLane, if_neg]
    rintro ⟨rfl, -⟩
    exact h s (le_refl _) (by simp) rfl

/-- XORing in two runs one after the other is XORing in their concatenation. -/
theorem xorBytes_append (bs cs : List Byte) :
    ∀ (a : Lanes) (s : Nat), xorBytes a s (bs ++ cs) = xorBytes (xorBytes a s bs) (s + bs.length) cs := by
  induction bs with
  | nil => intro a s; rfl
  | cons b bs ih =>
    intro a s
    simp only [List.cons_append, xorBytes, List.length_cons]
    rw [ih, show s + 1 + bs.length = s + (bs.length + 1) by omega]

/-- The rate block has as many bytes as the rate, when that is a multiple of 8. -/
theorem rateBlock_length (rate : Nat) (a : Lanes) : (rateBlock rate a).length = 8 * (rate / 8) := by
  simp [rateBlock, List.length_flatMap, Nat.mul_comm]

end Sys2Proof.Machine
end

