-- ==== Sys2Proof/Laws/State.lean ====
section
/-! SUPPORT. One lemma per field and named update of the state, and the fields of the state after reset. -/

namespace Sys2Proof.Machine

@[simp] theorem respond_sponge (s : State) (r : Response) : (s.respond r).sponge = s.sponge := rfl
@[simp] theorem respond_opCounter (s : State) (r : Response) : (s.respond r).opCounter = s.opCounter := rfl
@[simp] theorem respond_inputs (s : State) (r : Response) : (s.respond r).inputs = s.inputs := rfl
@[simp] theorem respond_responses (s : State) (r : Response) : (s.respond r).responses = s.responses ++ [r] := rfl
@[simp] theorem respond_refusedMark (s : State) (r : Response) : (s.respond r).refusedMark = s.refusedMark := rfl
@[simp] theorem respond_params (s : State) (r : Response) : (s.respond r).params = s.params := rfl
@[simp] theorem respond_draws (s : State) (r : Response) : (s.respond r).draws = s.draws := rfl

@[simp] theorem withSponge_sponge (s : State) (sp : Sponge) : (s.withSponge sp).sponge = sp := rfl
@[simp] theorem withSponge_opCounter (s : State) (sp : Sponge) : (s.withSponge sp).opCounter = s.opCounter := rfl
@[simp] theorem withSponge_inputs (s : State) (sp : Sponge) : (s.withSponge sp).inputs = s.inputs := rfl
@[simp] theorem withSponge_responses (s : State) (sp : Sponge) : (s.withSponge sp).responses = s.responses := rfl
@[simp] theorem withSponge_refusedMark (s : State) (sp : Sponge) : (s.withSponge sp).refusedMark = s.refusedMark := rfl
@[simp] theorem withSponge_params (s : State) (sp : Sponge) : (s.withSponge sp).params = s.params := rfl
@[simp] theorem withSponge_draws (s : State) (sp : Sponge) : (s.withSponge sp).draws = s.draws := rfl

@[simp] theorem countOp_sponge (s : State) : s.countOp.sponge = s.sponge := rfl
@[simp] theorem countOp_opCounter (s : State) : s.countOp.opCounter = s.opCounter + 1#64 := rfl
@[simp] theorem countOp_inputs (s : State) : s.countOp.inputs = s.inputs := rfl
@[simp] theorem countOp_responses (s : State) : s.countOp.responses = s.responses := rfl
@[simp] theorem countOp_refusedMark (s : State) : s.countOp.refusedMark = s.refusedMark := rfl
@[simp] theorem countOp_params (s : State) : s.countOp.params = s.params := rfl
@[simp] theorem countOp_draws (s : State) : s.countOp.draws = s.draws := rfl

section complete
variable (s : State) (sp : Sponge) (perms cost : Nat) (out : List Byte)

@[simp] theorem complete_sponge : (s.complete sp perms cost out).sponge = sp := rfl
@[simp] theorem complete_opCounter : (s.complete sp perms cost out).opCounter = s.opCounter + 1#64 := rfl
@[simp] theorem complete_inputs : (s.complete sp perms cost out).inputs = s.inputs := rfl
@[simp] theorem complete_responses :
    (s.complete sp perms cost out).responses = s.responses ++ [.ok perms cost out] := rfl
@[simp] theorem complete_refusedMark : (s.complete sp perms cost out).refusedMark = s.refusedMark := rfl
@[simp] theorem complete_params : (s.complete sp perms cost out).params = s.params := rfl
@[simp] theorem complete_draws : (s.complete sp perms cost out).draws = s.draws := rfl

end complete

@[simp] theorem raise_sponge (s : State) (k : ErrorKind) : (s.raise k).sponge = s.sponge := rfl
@[simp] theorem raise_opCounter (s : State) (k : ErrorKind) : (s.raise k).opCounter = s.opCounter := rfl
@[simp] theorem raise_inputs (s : State) (k : ErrorKind) : (s.raise k).inputs = s.inputs := rfl
@[simp] theorem raise_responses (s : State) (k : ErrorKind) : (s.raise k).responses = s.responses ++ [.error k] := rfl
@[simp] theorem raise_refusedMark (s : State) (k : ErrorKind) : (s.raise k).refusedMark = s.refusedMark := rfl
@[simp] theorem raise_params (s : State) (k : ErrorKind) : (s.raise k).params = s.params := rfl
@[simp] theorem raise_draws (s : State) (k : ErrorKind) : (s.raise k).draws = s.draws := rfl

@[simp] theorem raiseDrawn_sponge (s : State) : s.raiseDrawn.sponge = s.sponge := rfl
@[simp] theorem raiseDrawn_opCounter (s : State) : s.raiseDrawn.opCounter = s.opCounter := rfl
@[simp] theorem raiseDrawn_inputs (s : State) : s.raiseDrawn.inputs = s.inputs := rfl
@[simp] theorem raiseDrawn_responses (s : State) :
    s.raiseDrawn.responses = s.responses ++ [.error (Config.errorDraw s.draws)] := rfl
@[simp] theorem raiseDrawn_refusedMark (s : State) : s.raiseDrawn.refusedMark = s.refusedMark := rfl
@[simp] theorem raiseDrawn_params (s : State) : s.raiseDrawn.params = s.params := rfl
@[simp] theorem raiseDrawn_draws (s : State) : s.raiseDrawn.draws = s.draws + 1 := rfl

@[simp] theorem hardwareReset_sponge (s : State) : s.hardwareReset.sponge = Sponge.atReset := rfl
@[simp] theorem hardwareReset_opCounter (s : State) : s.hardwareReset.opCounter = opCounterAtReset := rfl
@[simp] theorem hardwareReset_inputs (s : State) : s.hardwareReset.inputs = s.inputs := rfl
@[simp] theorem hardwareReset_responses (s : State) : s.hardwareReset.responses = s.responses := rfl
@[simp] theorem hardwareReset_refusedMark (s : State) : s.hardwareReset.refusedMark = s.refusedMark := rfl
@[simp] theorem hardwareReset_params (s : State) : s.hardwareReset.params = s.params := rfl
@[simp] theorem hardwareReset_draws (s : State) : s.hardwareReset.draws = s.draws := rfl

@[simp] theorem markRefused_sponge (s : State) (r : Refusal) : (s.markRefused r).sponge = s.sponge := rfl
@[simp] theorem markRefused_opCounter (s : State) (r : Refusal) : (s.markRefused r).opCounter = s.opCounter := rfl
@[simp] theorem markRefused_inputs (s : State) (r : Refusal) : (s.markRefused r).inputs = s.inputs := rfl
@[simp] theorem markRefused_responses (s : State) (r : Refusal) : (s.markRefused r).responses = s.responses := rfl
@[simp] theorem markRefused_refusedMark (s : State) (r : Refusal) : (s.markRefused r).refusedMark = some r := rfl
@[simp] theorem markRefused_params (s : State) (r : Refusal) : (s.markRefused r).params = s.params := rfl
@[simp] theorem markRefused_draws (s : State) (r : Refusal) : (s.markRefused r).draws = s.draws := rfl

@[simp] theorem withInputs_sponge (s : State) (l : List Input) : (s.withInputs l).sponge = s.sponge := rfl
@[simp] theorem withInputs_opCounter (s : State) (l : List Input) : (s.withInputs l).opCounter = s.opCounter := rfl
@[simp] theorem withInputs_inputs (s : State) (l : List Input) : (s.withInputs l).inputs = l := rfl
@[simp] theorem withInputs_responses (s : State) (l : List Input) : (s.withInputs l).responses = s.responses := rfl
@[simp] theorem withInputs_refusedMark (s : State) (l : List Input) : (s.withInputs l).refusedMark = s.refusedMark := rfl
@[simp] theorem withInputs_params (s : State) (l : List Input) : (s.withInputs l).params = s.params := rfl
@[simp] theorem withInputs_draws (s : State) (l : List Input) : (s.withInputs l).draws = s.draws := rfl

@[simp] theorem withFetchWord_eq (s : State) (nbits w : Nat) :
    s.withFetchWord nbits w = s.withInputs (.request (tableRequest nbits w) :: s.inputs) := rfl

section configure
variable (r : Operand)

@[simp] theorem configure_lanes : (Sponge.configure r).lanes = zeroLanes := rfl
@[simp] theorem configure_rateBytes : (Sponge.configure r).rateBytes = r := rfl
@[simp] theorem configure_phase : (Sponge.configure r).phase = .absorbing := rfl
@[simp] theorem configure_pendingBytes : (Sponge.configure r).pendingBytes = 0 := rfl
@[simp] theorem configure_configured : (Sponge.configure r).configured = true := rfl

end configure

@[simp] theorem reset_sponge : State.reset.sponge = Sponge.atReset := rfl
@[simp] theorem reset_inputs : State.reset.inputs = [] := rfl
@[simp] theorem reset_responses : State.reset.responses = [] := rfl
@[simp] theorem reset_refusedMark : State.reset.refusedMark = none := rfl
@[simp] theorem reset_absorbBoundary : State.reset.params.absorbBoundary = .strict := rfl
@[simp] theorem atReset_configured : Sponge.atReset.configured = false := rfl

end Sys2Proof.Machine
end

