-- ==== Sys2Proof/Laws/Absorb.lean ====
section
/-! SUPPORT. What the block loop of ABSORB does: its fuel never runs out, it unfolds as the loop of R115, it can be cut
anywhere, and R120's closed form. -/

namespace Sys2Proof.Machine

@[simp] theorem more_strict (rate pending rem : Nat) :
    more .strict rate pending rem = true ↔ rate < pending + rem := by simp [more]

@[simp] theorem more_nonstrict (rate pending rem : Nat) :
    more .nonstrict rate pending rem = true ↔ rate ≤ pending + rem := by simp [more]

@[simp] theorem absorbPass_pending (rate : Nat) (w : AbsorbWork) : (absorbPass rate w).pending = 0 := rfl
@[simp] theorem absorbPass_perms (rate : Nat) (w : AbsorbWork) : (absorbPass rate w).perms = w.perms + 1 := rfl
@[simp] theorem absorbPass_rest (rate : Nat) (w : AbsorbWork) :
    (absorbPass rate w).rest = w.rest.drop (rate - w.pending) := rfl
@[simp] theorem absorbPass_lanes (rate : Nat) (w : AbsorbWork) :
    (absorbPass rate w).lanes = permute (xorBytes w.lanes w.pending (w.rest.take (rate - w.pending))) := rfl

/-- While the loop goes on, the bytes to the end of the block are there to be consumed. -/
theorem le_rest_of_more {b : AbsorbBoundary} {rate : Nat} {w : AbsorbWork}
    (h : more b rate w.pending w.rest.length = true) : rate - w.pending ≤ w.rest.length := by
  cases b <;> simp at h <;> omega

/-- With nothing pending, one unit of fuel a byte is enough: more of it changes nothing. -/
theorem absorbLoop_fuel {b : AbsorbBoundary} {rate : Nat} (hr : 0 < rate) :
    ∀ (n : Nat) (w : AbsorbWork), w.pending = 0 → w.rest.length ≤ n →
      absorbLoop b rate n w = absorbLoop b rate w.rest.length w := by
  intro n
  induction n using Nat.strong_induction_on with
  | _ n ih =>
    intro w hp hn
    rcases Nat.eq_zero_or_pos w.rest.length with h0 | hpos
    · rw [h0]
      cases n with
      | zero => rfl
      | succ n =>
        have hm : more b rate w.pending w.rest.length = false := by
          cases b <;> simp [more, hp, h0, hr.ne']
        simp [absorbLoop, hm]
    · obtain ⟨m, hm⟩ : ∃ m, w.rest.length = m + 1 := ⟨w.rest.length - 1, by omega⟩
      obtain ⟨k, rfl⟩ : ∃ k, n = k + 1 := ⟨n - 1, by omega⟩
      rw [hm, absorbLoop, absorbLoop]
      split
      · have hlen : (absorbPass rate w).rest.length ≤ m := by simp [hp]; omega
        rw [ih k (by omega) _ rfl (by omega)]
        rcases Nat.lt_or_ge m (k + 1) with hlt | hge
        · rw [ih m hlt _ rfl hlen]
        · omega
      · rfl

/-- The loop of R115, unfolded once, the remaining bytes after it: the fuel is never what ends it (R192). -/
theorem absorbAll_eq {b : AbsorbBoundary} {rate : Nat} (hr : 0 < rate) (w : AbsorbWork) :
    absorbAll b rate w =
      if more b rate w.pending w.rest.length = true then absorbAll b rate (absorbPass rate w) else absorbTail w := by
  unfold absorbAll
  rw [absorbLoop]
  split
  next h =>
    have hle := le_rest_of_more h
    congr 1
    rw [absorbLoop_fuel hr w.rest.length _ rfl (by simp),
      absorbLoop_fuel hr ((absorbPass rate w).rest.length + 1) _ rfl (by omega)]
  next => rfl

/-- Induction over the passes of the loop. -/
theorem absorb_induction {b : AbsorbBoundary} {rate : Nat} (hr : 0 < rate) {P : AbsorbWork → Prop}
    (pass : ∀ w, more b rate w.pending w.rest.length = true → P (absorbPass rate w) → P w)
    (last : ∀ w, more b rate w.pending w.rest.length = false → P w) (w : AbsorbWork) : P w := by
  induction hn : w.rest.length + w.pending using Nat.strong_induction_on generalizing w with
  | _ n ih =>
    cases hm : more b rate w.pending w.rest.length with
    | false => exact last w hm
    | true =>
      refine pass w hm (ih _ ?_ _ rfl)
      have := le_rest_of_more hm
      simp
      cases b <;> simp at hm <;> omega

/-- Absorbing a message may be cut anywhere (R122). -/
theorem absorbAll_append {b : AbsorbBoundary} {rate : Nat} (hr : 0 < rate) (second : List Byte) (w : AbsorbWork) :
    absorbAll b rate { w with rest := w.rest ++ second } =
      absorbAll b rate { absorbAll b rate w with rest := second } := by
  refine absorb_induction (b := b) hr (P := fun w =>
    absorbAll b rate { w with rest := w.rest ++ second } =
      absorbAll b rate { absorbAll b rate w with rest := second }) ?_ ?_ w
  · intro w hm ih
    have hle := le_rest_of_more hm
    have hm' : more b rate w.pending (w.rest ++ second).length = true := by
      cases b <;> simp at hm ⊢ <;> omega
    have hpass : absorbPass rate { w with rest := w.rest ++ second }
        = { absorbPass rate w with rest := (absorbPass rate w).rest ++ second } := by
      simp only [absorbPass, List.take_append_of_le_length hle, List.drop_append_of_le_length hle]
    rw [absorbAll_eq hr w, if_pos hm, ← ih, ← hpass]
    rw [absorbAll_eq hr { w with rest := w.rest ++ second }, if_pos hm']
  · intro w hm
    rw [absorbAll_eq hr w, if_neg (by simp [hm]), absorbAll_eq hr { w with rest := w.rest ++ second },
      absorbAll_eq hr { absorbTail w with rest := second }]
    have hle : w.pending + w.rest.length ≤ rate := by
      cases b <;> simp [more] at hm <;> omega
    have hsame : more b rate w.pending (w.rest ++ second).length
        = more b rate (absorbTail w).pending second.length := by
      simp [absorbTail, Nat.add_assoc, more]
    simp only [hsame]
    split
    · have h1 : rate - w.pending = w.rest.length + (rate - (w.pending + w.rest.length)) := by omega
      have hpass : absorbPass rate { w with rest := w.rest ++ second }
          = absorbPass rate { absorbTail w with rest := second } := by
        simp only [absorbPass, absorbTail]
        rw [h1, List.take_length_add_append, List.drop_length_add_append, xorBytes_append]
      rw [hpass]
    · simp [absorbTail, xorBytes_append, Nat.add_assoc]

/-- The permutation count of the work done before is only carried along. -/
theorem absorbAll_perms_add {b : AbsorbBoundary} {rate : Nat} (hr : 0 < rate) (k : Nat) (w : AbsorbWork) :
    absorbAll b rate { w with perms := w.perms + k } =
      { absorbAll b rate w with perms := (absorbAll b rate w).perms + k } := by
  refine absorb_induction (b := b) hr (P := fun w =>
    absorbAll b rate { w with perms := w.perms + k } =
      { absorbAll b rate w with perms := (absorbAll b rate w).perms + k }) ?_ ?_ w
  · intro w hm ih
    rw [absorbAll_eq hr w, if_pos hm, ← ih, absorbAll_eq hr { w with perms := w.perms + k }, if_pos hm]
    simp only [absorbPass, Nat.add_right_comm]
  · intro w hm
    rw [absorbAll_eq hr w, absorbAll_eq hr { w with perms := w.perms + k }, if_neg (by simp [hm]),
      if_neg (by simp [hm])]
    rfl

/-- R120's closed form for the permutation count and `pendingBytes`, from a `pendingBytes` in its range. -/
theorem absorbAll_closed {b : AbsorbBoundary} {rate : Nat} (hr : 0 < rate) (w : AbsorbWork)
    (hs : w.pending ≤ rate) (hn : b = .nonstrict → w.pending < rate) :
    (absorbAll b rate w).perms = w.perms + closedPerms b rate w.pending w.rest.length
      ∧ (absorbAll b rate w).pending = closedPending b rate w.pending w.rest.length := by
  revert hs hn
  refine absorb_induction (b := b) hr (P := fun w => w.pending ≤ rate → (b = .nonstrict → w.pending < rate) →
    (absorbAll b rate w).perms = w.perms + closedPerms b rate w.pending w.rest.length
      ∧ (absorbAll b rate w).pending = closedPending b rate w.pending w.rest.length) ?_ ?_ w
  · intro w hm ih hs hn
    have hle := le_rest_of_more hm
    rw [absorbAll_eq hr w, if_pos hm]
    obtain ⟨h1, h2⟩ := ih (by simp) (fun _ => by simpa using hr)
    rw [h1, h2]
    simp only [absorbPass_perms, absorbPass_pending, absorbPass_rest, List.length_drop]
    cases b with
    | strict =>
      simp at hm
      have e : w.pending + w.rest.length + rate - 1
          = (0 + (w.rest.length - (rate - w.pending)) + rate - 1) + rate := by omega
      have hge : 1 ≤ (0 + (w.rest.length - (rate - w.pending)) + rate - 1) / rate := by
        rw [Nat.one_le_div_iff hr]; omega
      have hd : (w.pending + w.rest.length + rate - 1) / rate
          = (0 + (w.rest.length - (rate - w.pending)) + rate - 1) / rate + 1 := by
        rw [e, Nat.add_div_right _ hr]
      simp only [closedPerms, closedPending, hd]
      refine ⟨by omega, ?_⟩
      obtain ⟨q, hq⟩ : ∃ q, (0 + (w.rest.length - (rate - w.pending)) + rate - 1) / rate = q + 1 :=
        ⟨_, (Nat.sub_add_cancel hge).symm⟩
      rw [hq]
      simp only [Nat.add_sub_cancel]
      have : (q + 1) * rate = q * rate + rate := by ring
      omega
    | nonstrict =>
      have hn' := hn rfl
      simp at hm
      have e : w.pending + w.rest.length = (0 + (w.rest.length - (rate - w.pending))) + rate := by omega
      simp only [closedPerms, closedPending]
      rw [e, Nat.add_div_right _ hr, Nat.add_mod_right]
      exact ⟨by omega, rfl⟩
  · intro w hm hs hn
    rw [absorbAll_eq hr w, if_neg (by simp [hm])]
    simp only [absorbTail]
    cases b with
    | strict =>
      simp [more] at hm
      have : (w.pending + w.rest.length + rate - 1) / rate ≤ 1 := by
        rw [← Nat.lt_succ_iff, Nat.div_lt_iff_lt_mul hr]; omega
      have h0 : closedPerms .strict rate w.pending w.rest.length = 0 := by
        simp only [closedPerms]; omega
      simp [closedPending, h0]
    | nonstrict =>
      simp [more] at hm
      simp [closedPerms, closedPending, Nat.div_eq_of_lt hm, Nat.mod_eq_of_lt hm]

/-- The closed form of `pendingBytes` stays in the range of R25. -/
theorem closedPending_range (b : AbsorbBoundary) {rate pending length : Nat} (hr : 0 < rate) (h8 : rate % 8 = 0)
    (hp : pending % 8 = 0) (hl : length % 8 = 0) (hs : pending ≤ rate) :
    closedPending b rate pending length % 8 = 0 ∧ closedPending b rate pending length ≤ rate
      ∧ (b = .nonstrict → closedPending b rate pending length < rate) := by
  obtain ⟨r', rfl⟩ : ∃ r', rate = 8 * r' := ⟨rate / 8, by omega⟩
  cases b with
  | nonstrict =>
    have hlt := Nat.mod_lt (pending + length) hr
    have e : (pending + length) % (8 * r') % 8 = (pending + length) % 8 := Nat.mod_mod_of_dvd _ ⟨r', rfl⟩
    simp only [closedPending]
    exact ⟨by omega, by omega, fun _ => hlt⟩
  | strict =>
    simp only [closedPending, closedPerms]
    have hdiv := Nat.lt_div_mul_add (a := pending + length + 8 * r' - 1) hr
    generalize (pending + length + 8 * r' - 1) / (8 * r') = q at *
    have hmul : (q - 1) * (8 * r') = 8 * ((q - 1) * r') := by ring
    refine ⟨by omega, ?_, by simp⟩
    cases q with
    | zero => simp at *; omega
    | succ q =>
      simp only [Nat.add_sub_cancel] at *
      have : (q + 1) * (8 * r') = q * (8 * r') + 8 * r' := by ring
      omega

end Sys2Proof.Machine
end

