-- ==== Sys2Proof/Laws/Decode.lean ====
section
/-! SUPPORT. The fields of a command word as arithmetic on it as a number. -/

namespace Sys2Proof

@[simp] theorem wellFormed_init (r : Operand) : (Instr.init r).WellFormed := rfl
@[simp] theorem wellFormed_squeeze (n : Operand) : (Instr.squeeze n).WellFormed := rfl
@[simp] theorem wellFormed_absorb (m : List Byte) : (Instr.absorb m).WellFormed ↔ m.length < 2 ^ 56 := by
  simp [Instr.WellFormed, Instr.wf]

@[simp] theorem opField_toNat (cmd : CommandWord) : (opField cmd).toNat = cmd.toNat % 16 := by
  simp [opField, BitVec.extractLsb'_toNat]

@[simp] theorem rsvdField_toNat (cmd : CommandWord) : (rsvdField cmd).toNat = cmd.toNat / 16 % 16 := by
  simp [rsvdField, BitVec.extractLsb'_toNat, Nat.shiftRight_eq_div_pow]

@[simp] theorem operandField_toNat (cmd : CommandWord) : (operandField cmd).toNat = cmd.toNat / 256 := by
  simp only [operandField, BitVec.extractLsb'_toNat, Nat.shiftRight_eq_div_pow]
  have := cmd.isLt
  exact Nat.mod_eq_of_lt (by omega)

/-- A command word made of fields, as a number (R60). -/
theorem commandWord_toNat (op : BitVec 4) (arg : Operand) :
    (commandWord op arg).toNat = arg.toNat * 256 + op.toNat := by
  have h := op.isLt
  show ((arg ++ ((0#4 : BitVec 4) ++ op) : BitVec (56 + (4 + 4)))).toNat = _
  rw [BitVec.toNat_append, BitVec.toNat_append]
  simp only [BitVec.toNat_ofNat, Nat.zero_mod, Nat.zero_shiftLeft, Nat.zero_or]
  rw [← Nat.shiftLeft_add_eq_or_of_lt (by omega), Nat.shiftLeft_eq]

@[simp] theorem opField_commandWord (op : BitVec 4) (arg : Operand) : opField (commandWord op arg) = op := by
  apply BitVec.eq_of_toNat_eq
  have := op.isLt
  rw [opField_toNat, commandWord_toNat]
  omega

@[simp] theorem rsvdField_commandWord (op : BitVec 4) (arg : Operand) : rsvdField (commandWord op arg) = 0#4 := by
  apply BitVec.eq_of_toNat_eq
  have := op.isLt
  rw [rsvdField_toNat, commandWord_toNat]
  simp
  omega

@[simp] theorem operandField_commandWord (op : BitVec 4) (arg : Operand) :
    operandField (commandWord op arg) = arg := by
  apply BitVec.eq_of_toNat_eq
  have := op.isLt
  rw [operandField_toNat, commandWord_toNat]
  omega

/-- A command word whose `RSVD` is zero is made of its other two fields. -/
theorem commandWord_of_fields (cmd : CommandWord) (h : rsvdField cmd = 0#4) :
    commandWord (opField cmd) (operandField cmd) = cmd := by
  apply BitVec.eq_of_toNat_eq
  have h' := congrArg BitVec.toNat h
  rw [rsvdField_toNat] at h'
  rw [commandWord_toNat, opField_toNat, operandField_toNat]
  simp at h'
  omega

end Sys2Proof
end

