-- ==== Sys2Proof/Laws/Exec.lean ====
section
/-! SUPPORT. What each meaning can answer, once: admission, the three instructions' next states, and one step. -/

namespace Sys2Proof.Machine

/-- A valid rate in arithmetic (R27). -/
theorem validRate_iff (r : Operand) : validRate r = true ↔ r.toNat % 8 = 0 ∧ 8 ≤ r.toNat ∧ r.toNat ≤ 200 := by
  unfold validRate
  rw [decide_eq_true_iff]
  rfl

/-- A sponge is admitted exactly when no refusal is found. -/
theorem admission_eq_none (sp : Sponge) : admission sp = none ↔ sp.Admits := by
  unfold admission Sponge.Admits
  cases sp.configured <;> cases validRate sp.rateBytes <;> simp

/-- Before any INIT the refusal is `Unconfigured` (R167). -/
theorem admission_unconfigured {sp : Sponge} (h : sp.configured = false) : admission sp = some .unconfigured := by
  simp [admission, h]

/-- Configured with an invalid rate, the refusal is `InvalidRate` (R166). -/
theorem admission_invalidRate {sp : Sponge} (h : sp.configured = true) (hr : validRate sp.rateBytes = false) :
    admission sp = some .invalidRate := by
  simp [admission, h, hr]

/-- INIT's only answer. -/
@[simp] theorem exec_init (r : Operand) (s : State) :
    exec (.init r) s = .next ((s.withSponge (Sponge.configure r)).respond (.ok 0 s.params.initCost [])) := rfl

/-- An accepted ABSORB. -/
theorem exec_absorb_of_accepts {m : List Byte} {s : State} (h : s.AcceptsAbsorb m) :
    exec (.absorb m) s = .next (s.absorb m) := by
  obtain ⟨ha, hp, hl⟩ := h
  have h1 : badLength m = false := by simp [badLength, wordBytes, hl]
  have h2 : badPhase s.sponge = false := by simp [badPhase, hp]
  simp only [exec, execAbsorb, (admission_eq_none _).2 ha, h1, h2]

/-- An admitted SQUEEZE. -/
theorem exec_squeeze_of_admits {n : Operand} {s : State} (h : s.sponge.Admits) :
    exec (.squeeze n) s = .next (s.squeeze n.toNat) := by
  simp only [exec, execSqueeze, (admission_eq_none _).2 h, operandValue]

/-- Everything an ABSORB can answer with a next state: its own effect, or one of the error responses (R160). -/
theorem exec_absorb_cases {m : List Byte} {s t : State} (h : exec (.absorb m) s = .next t) :
    s.sponge.Admits ∧
      ((s.AcceptsAbsorb m ∧ t = s.absorb m)
        ∨ (s.sponge.phase = .absorbing ∧ m.length % 8 ≠ 0 ∧ t = s.raise .invalidLength)
        ∨ (s.sponge.phase = .squeezing ∧ m.length % 8 = 0 ∧ t = s.raise .invalidState)
        ∨ (s.sponge.phase = .squeezing ∧ m.length % 8 ≠ 0 ∧ t = s.raiseDrawn)) := by
  simp only [exec, execAbsorb] at h
  cases ha : admission s.sponge with
  | some why => rw [ha] at h; cases h
  | none =>
    have had := (admission_eq_none _).1 ha
    refine ⟨had, ?_⟩
    rw [ha] at h
    cases hp : s.sponge.phase <;> by_cases hl : m.length % 8 = 0 <;>
      simp [badLength, wordBytes, badPhase, hp, hl] at h <;> subst h
    · exact .inl ⟨⟨had, hp, hl⟩, rfl⟩
    · exact .inr (.inl ⟨rfl, hl, rfl⟩)
    · exact .inr (.inr (.inl ⟨rfl, hl, rfl⟩))
    · exact .inr (.inr (.inr ⟨rfl, hl, rfl⟩))

/-- A SQUEEZE's next state. -/
theorem exec_squeeze_next {n : Operand} {s t : State} (h : exec (.squeeze n) s = .next t) :
    s.sponge.Admits ∧ t = s.squeeze n.toNat := by
  simp only [exec, execSqueeze] at h
  cases ha : admission s.sponge with
  | some why => rw [ha] at h; cases h
  | none =>
    rw [ha] at h
    cases h
    exact ⟨(admission_eq_none _).1 ha, rfl⟩

/-- Everything an instruction can answer with a next state. -/
theorem exec_next_cases {i : Instr} {s t : State} (h : exec i s = .next t) :
    (∃ r, i = .init r ∧ t = (s.withSponge (Sponge.configure r)).respond (.ok 0 s.params.initCost []))
    ∨ (∃ m, i = .absorb m ∧ s.sponge.Admits ∧
        ((s.AcceptsAbsorb m ∧ t = s.absorb m)
          ∨ (s.sponge.phase = .absorbing ∧ m.length % 8 ≠ 0 ∧ t = s.raise .invalidLength)
          ∨ (s.sponge.phase = .squeezing ∧ m.length % 8 = 0 ∧ t = s.raise .invalidState)
          ∨ (s.sponge.phase = .squeezing ∧ m.length % 8 ≠ 0 ∧ t = s.raiseDrawn)))
    ∨ (∃ n, i = .squeeze n ∧ s.sponge.Admits ∧ t = s.squeeze n.toNat) := by
  cases i with
  | init r => cases h; exact .inl ⟨r, rfl, rfl⟩
  | absorb m => exact .inr (.inl ⟨m, rfl, exec_absorb_cases h⟩)
  | squeeze n => exact .inr (.inr ⟨n, rfl, exec_squeeze_next h⟩)

/-- Everything one step can do with a next state: idle, a hardware reset, or a decoded instruction. -/
theorem step_next_cases {s t : State} (h : step s = .next t) :
    s.refusedMark = none ∧
      ((s.inputs = [] ∧ t = s)
        ∨ (∃ rest, s.inputs = .hardwareReset :: rest ∧ t = (s.withInputs rest).hardwareReset)
        ∨ (∃ q rest i, s.inputs = .request q :: rest ∧ decode q = .ok i ∧ exec i (s.withInputs rest) = .next t)) := by
  unfold step at h
  cases hm : s.refusedMark with
  | some why => simp [hm] at h
  | none =>
    refine ⟨rfl, ?_⟩
    rw [hm] at h
    cases hi : s.inputs with
    | nil => rw [hi] at h; cases h; exact .inl ⟨rfl, rfl⟩
    | cons x rest =>
      rw [hi] at h
      cases x with
      | hardwareReset => cases h; exact .inr (.inl ⟨rest, rfl, rfl⟩)
      | request q =>
        cases hd : decode q with
        | error why => simp [hd] at h
        | ok i => simp [hd] at h; exact .inr (.inr ⟨q, rest, i, rfl, hd, h⟩)

section absorb
variable (s : State) (m : List Byte)

@[simp] theorem absorb_rateBytes : (s.absorb m).sponge.rateBytes = s.sponge.rateBytes := rfl
@[simp] theorem absorb_phase : (s.absorb m).sponge.phase = s.sponge.phase := rfl
@[simp] theorem absorb_configured : (s.absorb m).sponge.configured = s.sponge.configured := rfl
@[simp] theorem absorb_opCounter : (s.absorb m).opCounter = s.opCounter + 1#64 := rfl
@[simp] theorem absorb_inputs : (s.absorb m).inputs = s.inputs := rfl
@[simp] theorem absorb_refusedMark : (s.absorb m).refusedMark = s.refusedMark := rfl
@[simp] theorem absorb_params : (s.absorb m).params = s.params := rfl
@[simp] theorem absorb_draws : (s.absorb m).draws = s.draws := rfl
theorem absorb_lanes :
    (s.absorb m).sponge.lanes = (s.sponge.absorbWork s.params.absorbBoundary m).lanes := rfl
theorem absorb_pendingBytes :
    (s.absorb m).sponge.pendingBytes = (s.sponge.absorbWork s.params.absorbBoundary m).pending := rfl
theorem absorb_responses :
    (s.absorb m).responses = s.responses ++
      [.ok (s.sponge.absorbWork s.params.absorbBoundary m).perms
        (costAbsorb m.length (s.sponge.absorbWork s.params.absorbBoundary m).perms) []] := rfl

end absorb

section finalize
variable (sp : Sponge)

@[simp] theorem finalize_rateBytes : sp.finalize.rateBytes = sp.rateBytes := by
  unfold Sponge.finalize; cases sp.phase <;> rfl
@[simp] theorem finalize_configured : sp.finalize.configured = sp.configured := by
  unfold Sponge.finalize; cases sp.phase <;> rfl
@[simp] theorem finalize_phase : sp.finalize.phase = .squeezing := by
  unfold Sponge.finalize; cases h : sp.phase <;> simp [h]
@[simp] theorem finalize_rate : sp.finalize.rate = sp.rate := by simp [Sponge.rate]
theorem finalize_pendingBytes :
    sp.finalize.pendingBytes = if sp.phase = .absorbing then 0 else sp.pendingBytes := by
  unfold Sponge.finalize; cases h : sp.phase <;> simp
/-- Finalization flips bit 63 of the rate block's last lane, when the phase was Absorbing, and no other bit (R123). -/
theorem lane_finalize (k : Nat) (hk : k < 25) :
    lane sp.finalize.lanes k =
      if sp.phase = .absorbing ∧ k = sp.rateBytes.toNat / 8 - 1 then lane sp.lanes k ^^^ 0x8000000000000000#64
      else lane sp.lanes k := by
  have e : (1#64 <<< 63) = 0x8000000000000000#64 := by decide
  unfold Sponge.finalize
  cases h : sp.phase with
  | squeezing => simp
  | absorbing =>
    simp only [lane_setLane, Sponge.lastRateLane, Sponge.rate, operandValue, e, true_and]
    by_cases hkk : k = sp.rateBytes.toNat / 8 - 1
    · subst hkk; simp [hk]
    · simp [hkk]

end finalize

/-- `n` blocks leave the lanes permuted `n` times. -/
theorem squeezeBlocks_lanes (rate n : Nat) (a : Lanes) : (squeezeBlocks rate n a).2 = permute^[n] a := by
  induction n generalizing a with
  | zero => rfl
  | succ n ih => simp only [squeezeBlocks, Function.iterate_succ_apply, ih]

/-- The output of `n` blocks, block by block (R125). -/
theorem squeezeBlocks_out (rate n : Nat) (a : Lanes) :
    (squeezeBlocks rate n a).1 = (List.range n).flatMap fun b => rateBlock rate (permute^[b + 1] a) := by
  induction n generalizing a with
  | zero => rfl
  | succ n ih =>
    simp only [squeezeBlocks, ih, List.range_succ_eq_map, List.flatMap_cons, List.flatMap_map]
    rfl

/-- The number of bytes `n` blocks put out. -/
theorem squeezeBlocks_length (rate n : Nat) (a : Lanes) :
    (squeezeBlocks rate n a).1.length = n * (8 * (rate / 8)) := by
  induction n generalizing a with
  | zero => simp [squeezeBlocks]
  | succ n ih => simp only [squeezeBlocks, List.length_append, rateBlock_length, ih]; ring

/-- Squeezing may be cut between blocks (R127). -/
theorem squeezeBlocks_add (rate m n : Nat) (a : Lanes) :
    squeezeBlocks rate (m + n) a =
      ((squeezeBlocks rate m a).1 ++ (squeezeBlocks rate n (squeezeBlocks rate m a).2).1,
        (squeezeBlocks rate n (squeezeBlocks rate m a).2).2) := by
  induction m generalizing a with
  | zero => simp [squeezeBlocks]
  | succ m ih => simp only [Nat.succ_add, squeezeBlocks, ih, List.append_assoc]

section squeeze
variable (s : State) (n : Nat)

@[simp] theorem squeeze_rateBytes : (s.squeeze n).sponge.rateBytes = s.sponge.rateBytes := by simp [State.squeeze]
@[simp] theorem squeeze_configured : (s.squeeze n).sponge.configured = s.sponge.configured := by simp [State.squeeze]
@[simp] theorem squeeze_phase : (s.squeeze n).sponge.phase = .squeezing := by simp [State.squeeze]
@[simp] theorem squeeze_opCounter : (s.squeeze n).opCounter = s.opCounter + 1#64 := rfl
@[simp] theorem squeeze_inputs : (s.squeeze n).inputs = s.inputs := rfl
@[simp] theorem squeeze_refusedMark : (s.squeeze n).refusedMark = s.refusedMark := rfl
@[simp] theorem squeeze_params : (s.squeeze n).params = s.params := rfl
@[simp] theorem squeeze_draws : (s.squeeze n).draws = s.draws := rfl
theorem squeeze_pendingBytes : (s.squeeze n).sponge.pendingBytes = s.sponge.finalize.pendingBytes := rfl
theorem squeeze_lanes : (s.squeeze n).sponge.lanes = permute^[n] s.sponge.finalize.lanes := by
  simp [State.squeeze, squeezeBlocks_lanes]
theorem squeeze_responses :
    (s.squeeze n).responses = s.responses ++
      [.ok n (costSqueeze (n * s.sponge.rate) n) (squeezeBlocks s.sponge.rate n s.sponge.finalize.lanes).1] := by
  simp [State.squeeze]

end squeeze

end Sys2Proof.Machine
end

