-- ==== Sys2Proof/Laws/PerInstr.lean ====
section
/-! SUPPORT. Per instruction: the fields and the buffer of the request that spells it (R60 to R63). -/

namespace Sys2Proof.Laws.EncodesOwnFields

/-- The request an instruction is encoded as holds the instruction's own `OP`, `RSVD` zero, its operand and its buffer,
nothing dropped; an ABSORB's operand is its length, as far as the field holds it. -/
def Statement (i : Instr) : Prop :=
  rsvdField (encode i).cmd = 0#4 ∧
    match i with
    | .init rateBytes =>
      opField (encode i).cmd = 0x1#4 ∧ operandField (encode i).cmd = rateBytes ∧ (encode i).buf = []
    | .absorb message =>
      opField (encode i).cmd = 0x2#4 ∧ (encode i).buf = message
        ∧ ((Instr.absorb message).WellFormed → (operandField (encode i).cmd).toNat = message.length)
    | .squeeze nblocks =>
      opField (encode i).cmd = 0x3#4 ∧ operandField (encode i).cmd = nblocks ∧ (encode i).buf = []

theorem init (rateBytes : Operand) : Statement (.init rateBytes) := by
  simp [Statement, encode, opInit]

theorem absorb (message : List Byte) : Statement (.absorb message) := by
  refine ⟨by simp [encode], by simp [encode, opAbsorb], rfl, fun h => ?_⟩
  have h' := (wellFormed_absorb message).1 h
  simp only [encode, operandField_commandWord, BitVec.toNat_ofNat]
  exact Nat.mod_eq_of_lt h'

theorem squeeze (nblocks : Operand) : Statement (.squeeze nblocks) := by
  simp [Statement, encode, opSqueeze]

end Sys2Proof.Laws.EncodesOwnFields
end

