-- ==== Sys2Proof/Laws/Permutation.lean ====
section
/-! SUPPORT. The rotation as the library's, and the rounds unfolded one at a time. -/

namespace Sys2Proof.Machine

/-- `ROTL64` is the library's rotation (R11). -/
theorem rotl64_eq_rotateLeft (v : Lane) {n : Nat} (hn : n < 64) : rotl64 v n = v.rotateLeft n := by
  unfold rotl64
  split
  · next h =>
    subst h
    apply BitVec.eq_of_getLsbD_eq
    intro i hi
    simp [hi]
  · rw [BitVec.rotateLeft_def, Nat.mod_eq_of_lt hn]

/-- Every rho offset is below 64. -/
theorem rhoOffsets_lt (i : Nat) : rhoOffsets.getD i 0 < 64 := by
  by_cases h : i < 25
  · interval_cases i <;> decide
  · rw [List.getD_eq_default _ _ (by simp [rhoOffsets]; omega)]
    decide

theorem firstRounds_zero (a : Lanes) : firstRounds a 0 = a := rfl

theorem firstRounds_succ (a : Lanes) (n : Nat) : firstRounds a (n + 1) = keccakRound (firstRounds a n) n := rfl

theorem permute_eq_firstRounds (a : Lanes) : permute a = firstRounds a 24 := rfl

end Sys2Proof.Machine
end

