-- ==== Sys2Proof/Tests/Slice0.lean ====
section
/-! SUPPORT. Tests whose expected values are the spec's own (95_test_vectors.md), and for every obligation with hypotheses
a witness that meets them. -/

namespace Sys2Proof.Tests

open Sys2Proof Sys2Proof.Machine

/-! ### Helpers -/

/-- A configured, Absorbing sponge with lanes zero. -/
def sponge (rate : Nat) (pending : Nat := 0) (lanes : Lanes := zeroLanes) : Sponge :=
  { lanes := lanes, rateBytes := BitVec.ofNat 56 rate, phase := .absorbing, pendingBytes := pending,
    configured := true }

/-- The same, Squeezing. -/
def squeezing (rate : Nat) (lanes : Lanes := zeroLanes) : Sponge :=
  { lanes := lanes, rateBytes := BitVec.ofNat 56 rate, phase := .squeezing, pendingBytes := 0, configured := true }

/-- A state with a given sponge and parameters. -/
def at' (sp : Sponge) (boundary : AbsorbBoundary := .strict) : State :=
  { State.reset with sponge := sp, params := { absorbBoundary := boundary, initCost := 7 } }

/-- The outcome is a next state with this property. -/
def nextHas (r : Result) (p : State → Bool) : Bool :=
  match r with
  | .next t => p t
  | .fault _ => false
  | .refused _ => false

/-- The outcome is this refusal. -/
def refusedFor (r : Result) (why : Refusal) : Bool :=
  match r with
  | .next _ => false
  | .fault _ => false
  | .refused w => decide (w = why)

/-- The lanes with only one lane not zero. -/
def onlyLane (i : Nat) (v : Lane) : Lanes := setLane zeroLanes i v

/-- The lanes with the given indices at `v` and the others at zero. -/
def lanesAt (is : List Nat) (v : Lane) : Lanes := is.foldl (fun a i => setLane a i v) zeroLanes

/-- Every lane at `v`. -/
def everyLane (v : Lane) : Lanes := Vector.replicate 25 v

/-- The message of program P1: "abc", the SHA-3 domain byte, zeros. -/
def abcMessage : List Byte := [0x61#8, 0x62#8, 0x63#8, 0x06#8, 0#8, 0#8, 0#8, 0#8]

/-- `n` zero bytes. -/
def zeroBytes (n : Nat) : List Byte := List.replicate n 0#8

/-! ### Well-formedness: the one check has an ill-formed term -/

theorem test_wf_refuses_absorb_longer_than_the_operand_field :
    ¬ (Instr.absorb (List.replicate (2 ^ 56) 0#8)).WellFormed := by
  simp only [wellFormed_absorb, List.length_replicate]
  exact Nat.lt_irrefl _

theorem test_wf_accepts_every_instruction :
    (Instr.init (BitVec.allOnes 56)).WellFormed ∧ (Instr.absorb [1#8]).WellFormed
      ∧ (Instr.squeeze (BitVec.allOnes 56)).WellFormed := by decide

/-! ### Decoding: words written from R60 and R61 (V-E1, V-E2) -/

theorem test_decode_init_136 : decode ⟨0x0000000000008801#64, []⟩ = .ok (.init 136#56) := by decide

theorem test_decode_init_bits :
    decode ⟨0b00000000_00000000_00000000_00000000_00000000_00000000_11001000_0000_0001#64, []⟩
      = .ok (.init 200#56) := by decide

theorem test_decode_absorb_0 : decode ⟨0x0000000000000002#64, []⟩ = .ok (.absorb []) := by decide

theorem test_decode_absorb_8 : decode ⟨0x0000000000000802#64, abcMessage⟩ = .ok (.absorb abcMessage) := by decide

theorem test_decode_squeeze_largest :
    decode ⟨0xFFFFFFFFFFFFFF03#64, []⟩ = .ok (.squeeze 72057594037927935#56) := by decide

theorem test_decode_refuses_reserved_opcodes :
    decode ⟨0x0000000000000000#64, []⟩ = .error .reservedOpcode
      ∧ decode ⟨0x0000000000008804#64, []⟩ = .error .reservedOpcode
      ∧ decode ⟨0x000000000000880F#64, []⟩ = .error .reservedOpcode := by decide

theorem test_decode_refuses_reserved_field :
    decode ⟨0x0000000000008811#64, []⟩ = .error .reservedField
      ∧ decode ⟨0x0000000000000812#64, zeroBytes 8⟩ = .error .reservedField := by decide

theorem test_decode_refuses_buffer_mismatch :
    decode ⟨0x0000000000000802#64, zeroBytes 16⟩ = .error .bufferMismatch
      ∧ decode ⟨0x0000000000008801#64, zeroBytes 8⟩ = .error .bufferMismatch
      ∧ decode ⟨0x0000000000000103#64, zeroBytes 8⟩ = .error .bufferMismatch := by decide

theorem test_encode_words :
    (encode (.init 136#56)).cmd = 0x0000000000008801#64
      ∧ (encode (.absorb abcMessage)).cmd = 0x0000000000000802#64
      ∧ (encode (.squeeze 3#56)).cmd = 0x0000000000000303#64 := by decide

/-! ### A table row's bits, and its first step after reset -/

theorem test_table_words :
    decodeTableWord 64 0x8801 = some (.init 136#56) ∧ decodeTableWord 64 0x2 = some (.absorb [])
      ∧ decodeTableWord 64 0x202 = some (.absorb [0#8, 0#8]) ∧ decodeTableWord 64 0x103 = some (.squeeze 1#56)
      ∧ decodeTableWord 64 0x4 = none := by decide

theorem test_table_word_with_buffer_bits :
    decodeTableWord 80 0xBBAA0000000000000202 = some (.absorb [0xAA#8, 0xBB#8]) := by decide

theorem test_first_step_init :
    nextHas (step (State.reset.withFetchWord 64 0x8801))
      (fun t => t.sponge.configured && t.sponge.rateBytes == 136#56) = true := by decide

/-- V-S13. -/
theorem test_first_step_absorb_and_squeeze_are_unconfigured :
    refusedFor (step (State.reset.withFetchWord 64 0x2)) .unconfigured = true
      ∧ refusedFor (step (State.reset.withFetchWord 64 0x103)) .unconfigured = true := by decide

theorem test_refusal_marks_the_state :
    (advance (State.reset.withFetchWord 64 0x0)).refusedMark = some (.encoding .reservedOpcode) := by decide

/-! ### The textual syntax (R69, R70; V-E3) -/

theorem test_parse_init : parseLine ['i', 'n', 'i', 't', ' ', '0', 'x', '8', '8'] = some (.init 136) := by decide

theorem test_parse_absorb :
    parseLine ['a', 'b', 's', 'o', 'r', 'b', ' ', ' ', '2', ',', ' ', '6', '1', ' ', 'F', 'f']
      = some (.absorb 2 [0x61#8, 0xFF#8]) := by decide

theorem test_parse_absorb_0 : parseLine ['a', 'b', 's', 'o', 'r', 'b', ' ', '0', ','] = some (.absorb 0 []) := by decide

theorem test_parse_squeeze : parseLine ['s', 'q', 'u', 'e', 'e', 'z', 'e', ' ', '3'] = some (.squeeze 3) := by decide

theorem test_parse_absorb_pad :
    parseLine ['a', 'b', 's', 'o', 'r', 'b', '.', 'p', 'a', 'd', ' ', ',', ' ', '0', '6']
      = some (.absorbPad [] 0x06#8) := by decide

theorem test_pad_of_abc : padMessage [0x61#8, 0x62#8, 0x63#8] 0x06#8 = abcMessage := by decide

theorem test_pad_of_a_whole_word :
    padMessage (zeroBytes 7) 0x06#8 = zeroBytes 7 ++ [0x06#8]
      ∧ padMessage (zeroBytes 8) 0x1F#8 = zeroBytes 8 ++ [0x1F#8] ++ zeroBytes 7 := by decide

theorem test_assemble_pad :
    assemble (.absorbPad [0x61#8, 0x62#8, 0x63#8] 0x06#8) = some ⟨0x0000000000000802#64, abcMessage⟩ := by decide

/-! ### The permutation's steps (V-P3 to V-P8) -/

theorem test_theta_one_lane :
    thetaStep (onlyLane 0 1#64)
      = [4, 9, 14, 19, 24].foldl (fun a i => setLane a i 2#64) (lanesAt [0, 1, 6, 11, 16, 21] 1#64) := by
  decide +kernel

theorem test_theta_rotation_carry :
    thetaStep (onlyLane 0 0x8000000000000000#64)
      = [4, 9, 14, 19, 24].foldl (fun a i => setLane a i 1#64)
          (lanesAt [0, 1, 6, 11, 16, 21] 0x8000000000000000#64) := by
  decide +kernel

theorem test_rho_every_lane_one :
    rhoStep (everyLane 1#64)
      = #v[0x0000000000000001#64, 0x0000000000000002#64, 0x4000000000000000#64, 0x0000000010000000#64,
           0x0000000008000000#64, 0x0000001000000000#64, 0x0000100000000000#64, 0x0000000000000040#64,
           0x0080000000000000#64, 0x0000000000100000#64, 0x0000000000000008#64, 0x0000000000000400#64,
           0x0000080000000000#64, 0x0000000002000000#64, 0x0000008000000000#64, 0x0000020000000000#64,
           0x0000200000000000#64, 0x0000000000008000#64, 0x0000000000200000#64, 0x0000000000000100#64,
           0x0000000000040000#64, 0x0000000000000004#64, 0x2000000000000000#64, 0x0100000000000000#64,
           0x0000000000004000#64] := by
  decide +kernel

theorem test_rho_wraps :
    (fun a => (lane a 0, lane a 1, lane a 2, lane a 8, lane a 23)) (rhoStep (everyLane 0x8000000000000000#64))
      = (0x8000000000000000#64, 0x0000000000000001#64, 0x2000000000000000#64, 0x0040000000000000#64,
          0x0080000000000000#64) := by
  decide +kernel

theorem test_pi_moves_lane_numbers :
    piStep (tabulate (BitVec.ofNat 64))
      = #v[0#64, 6#64, 12#64, 18#64, 24#64, 3#64, 9#64, 10#64, 16#64, 22#64, 1#64, 7#64, 13#64, 19#64, 20#64, 4#64,
           5#64, 11#64, 17#64, 23#64, 2#64, 8#64, 14#64, 15#64, 21#64] := by
  decide +kernel

theorem test_chi_one_lane :
    chiStep (onlyLane 1 (BitVec.allOnes 64)) = lanesAt [1, 4] (BitVec.allOnes 64)
      ∧ chiStep (onlyLane 6 (BitVec.allOnes 64)) = lanesAt [6, 9] (BitVec.allOnes 64) := by
  decide +kernel

theorem test_chi_two_lanes :
    chiStep (lanesAt [0, 2] (BitVec.allOnes 64)) = lanesAt [2, 3] (BitVec.allOnes 64) := by
  decide +kernel

theorem test_iota :
    iotaStep zeroLanes 23 = onlyLane 0 0x8000000080008008#64
      ∧ iotaStep (onlyLane 0 0x800000000000008B#64) 13 = zeroLanes := by
  decide +kernel

theorem test_rounds_0_and_1_of_zero :
    keccakRound zeroLanes 0 = onlyLane 0 1#64
      ∧ keccakRound (onlyLane 0 1#64) 1
        = #v[0x0000000000008083#64, 0x0000100000000000#64, 0x0000000000008000#64, 0x0000000000000001#64,
             0x0000100000008000#64, 0#64, 0x0000200000200000#64, 0#64, 0x0000200000000000#64,
             0x0000000000200000#64, 0x0000000000000002#64, 0x0000000000000200#64, 0#64, 0x0000000000000202#64, 0#64,
             0x0000000010000400#64, 0#64, 0x0000000000000400#64, 0x0000000010000000#64, 0#64,
             0x0000010000000000#64, 0#64, 0x0000010000000004#64, 0#64, 0x0000000000000004#64] := by
  decide +kernel

/-- V-P1, lanes 0, 16 and 24. -/
theorem test_permute_of_zero :
    (fun a => (lane a 0, lane a 16, lane a 24)) (permute zeroLanes)
      = (0xF1258F7940E1DDE7#64, 0x64BEFEF28CC970F2#64, 0xEAF1FF7B5CECA249#64) := by
  decide +kernel

/-! ### The three operations -/

/-- V-S1: INIT while Squeezing, with lanes not zero. -/
theorem test_init_from_squeezing :
    nextHas (exec (.init 72#56) (at' (squeezing 136 (everyLane 5#64))))
      (fun t => decide (t.sponge = sponge 72 ∧ t.responses = [.ok 0 7 []])) = true := by decide +kernel

/-- R111: INIT records an invalid rate like any other. -/
theorem test_init_invalid_rate :
    nextHas (exec (.init 7#56) (at' (sponge 136)))
      (fun t => decide (t.sponge = sponge 7 ∧ t.responses = [.ok 0 7 []])) = true := by
  decide +kernel

/-- P1 step 2; V-S3; V-S4. -/
theorem test_absorb_word_and_errors :
    nextHas (exec (.absorb abcMessage) (at' (sponge 136)))
        (fun t => decide (t.sponge = sponge 136 8 (onlyLane 0 0x0000000006636261#64) ∧ t.responses = [.ok 0 6 []]))
        = true
      ∧ nextHas (exec (.absorb (zeroBytes 5)) (at' (sponge 72)))
        (fun t => decide (t.sponge = sponge 72 ∧ t.responses = [.error .invalidLength])) = true
      ∧ nextHas (exec (.absorb (zeroBytes 8)) (at' (squeezing 72)))
        (fun t => decide (t.sponge = squeezing 72 ∧ t.responses = [.error .invalidState])) = true := by
  decide +kernel

/-- V-S6 and V-S7: a block filled exactly is not permuted under `STRICT` and is under `NONSTRICT`. -/
theorem test_absorb_exact_block :
    nextHas (exec (.absorb (zeroBytes 136)) (at' (sponge 136)))
        (fun t => decide (t.sponge = sponge 136 136 ∧ t.responses = [.ok 0 38 []])) = true
      ∧ nextHas (exec (.absorb (zeroBytes 136)) (at' (sponge 136) .nonstrict))
        (fun t => decide (t.sponge.pendingBytes = 0 ∧ lane t.sponge.lanes 0 = 0xF1258F7940E1DDE7#64
          ∧ t.responses = [.ok 1 64 []])) = true := by
  decide +kernel

/-- P1 step 3: the first eight bytes of SHA3-256("abc") out of 136, at cost 47. -/
theorem test_squeeze_abc :
    nextHas (exec (.squeeze 1#56) (at' (sponge 136 8 (onlyLane 0 0x0000000006636261#64))))
      (fun t => t.responses.any fun r =>
        match r with
        | .ok perms cost out =>
          decide (perms = 1 ∧ cost = 47 ∧ out.length = 136
            ∧ out.take 8 = [0x3A#8, 0x98#8, 0x5D#8, 0xA7#8, 0x4F#8, 0xE2#8, 0x25#8, 0xB2#8])
        | .error _ => false) = true := by
  decide +kernel

/-- V-S10: a first SQUEEZE of no blocks finalizes. -/
theorem test_squeeze_0 :
    nextHas (exec (.squeeze 0#56) (at' (sponge 72 64)))
      (fun t => decide (t.sponge = squeezing 72 (onlyLane 8 0x8000000000000000#64) ∧ t.responses = [.ok 0 4 []]))
        = true := by
  decide +kernel

/-- R128 at rate 200: the marker in lane 24. -/
theorem test_finalize_rate_200 : (sponge 200).finalize.lanes = onlyLane 24 0x8000000000000000#64 := by decide +kernel

/-! ### Witnesses: for each obligation with hypotheses, values that meet them, one for each clause -/

/-- A state with inputs waiting. -/
def waiting (inputs : List Input) (sp : Sponge := sponge 136) : State := { at' sp with inputs := inputs }

/-- The request of P1 step 2. -/
def abcRequest : Request := ⟨0x0000000000000802#64, abcMessage⟩

theorem admits_136 (pending : Nat) (lanes : Lanes) : (sponge 136 pending lanes).Admits :=
  ⟨rfl, (by decide : validRate 136#56 = true)⟩

theorem witness_Admits_at_the_ends_of_the_range :
    (sponge 8).Admits ∧ (sponge 200).Admits ∧ (squeezing 8).Admits ∧ (squeezing 200).Admits := by
  refine ⟨⟨rfl, ?_⟩, ⟨rfl, ?_⟩, ⟨rfl, ?_⟩, ⟨rfl, ?_⟩⟩ <;> decide

/-- A full block under `STRICT`, the fullest under `NONSTRICT`, an invalid rate, Squeezing, and no INIT yet. -/
theorem witness_Inv :
    (at' (sponge 136 136)).Inv ∧ (at' (sponge 136 128) .nonstrict).Inv ∧ (at' (sponge 7)).Inv
      ∧ (at' (squeezing 200 (everyLane 1#64))).Inv ∧ (at' Sponge.atReset).Inv := by
  refine ⟨?_, ?_, ?_, ?_, ?_⟩ <;> (unfold State.Inv Sponge.Inv; decide)

theorem witness_AcceptsAbsorb :
    (at' (sponge 136 136)).AcceptsAbsorb abcMessage ∧ (at' (sponge 136 136)).AcceptsAbsorb []
      ∧ (at' (sponge 136 128) .nonstrict).AcceptsAbsorb abcMessage := by
  refine ⟨⟨admits_136 _ _, rfl, ?_⟩, ⟨admits_136 _ _, rfl, ?_⟩, ⟨admits_136 _ _, rfl, ?_⟩⟩ <;> decide

theorem witness_DecodeAndEncodeAreInverse :
    decode abcRequest = .ok (.absorb abcMessage)
      ∧ (Instr.absorb abcMessage).WellFormed ∧ encode (.absorb abcMessage) = abcRequest := by decide

theorem witness_DecodeFollowsDecodingSummary :
    (0x8811#64 : CommandWord).toNat / 16 % 16 ≠ 0
      ∧ ((0x8801#64 : CommandWord).toNat / 16 % 16 = 0 ∧ (0x8801#64 : CommandWord).toNat % 16 = 1)
      ∧ (abcRequest.cmd.toNat / 16 % 16 = 0 ∧ abcRequest.cmd.toNat % 16 = 2)
      ∧ ((0xFFFFFFFFFFFFFF03#64 : CommandWord).toNat / 16 % 16 = 0
          ∧ (0xFFFFFFFFFFFFFF03#64 : CommandWord).toNat % 16 = 3)
      ∧ ((0#64 : CommandWord).toNat / 16 % 16 = 0 ∧ (0#64 : CommandWord).toNat % 16 = 0)
      ∧ ((0x8804#64 : CommandWord).toNat / 16 % 16 = 0 ∧ 4 ≤ (0x8804#64 : CommandWord).toNat % 16)
      ∧ ((0x880F#64 : CommandWord).toNat / 16 % 16 = 0 ∧ 4 ≤ (0x880F#64 : CommandWord).toNat % 16) := by decide

theorem witness_AbsorbPadExpandsToLeastPadding : (padMessage (zeroBytes 135) 0x06#8).length < 2 ^ 56 := by
  decide +kernel

theorem witness_StepRunsDecodedRequest :
    (waiting [.request abcRequest]).refusedMark = none
      ∧ (waiting [.request abcRequest]).inputs = .request abcRequest :: []
      ∧ decode abcRequest = .ok (.absorb abcMessage) := ⟨rfl, rfl, by decide⟩

theorem witness_StepRefusesUndecodableRequest :
    (waiting [.request ⟨0x8804#64, []⟩]).refusedMark = none
      ∧ (waiting [.request ⟨0x8804#64, []⟩]).inputs = .request ⟨0x8804#64, []⟩ :: []
      ∧ decode ⟨0x8804#64, []⟩ = .error .reservedOpcode := ⟨rfl, rfl, by decide⟩

theorem witness_FetchedTableWordRuns :
    State.reset.refusedMark = none ∧ decodeTableWord 64 0x103 = some (.squeeze 1#56) := ⟨rfl, by decide⟩

theorem witness_IdleCoreKeepsItsState :
    (at' (squeezing 136 (everyLane 1#64))).refusedMark = none ∧ (at' (squeezing 136 (everyLane 1#64))).inputs = [] :=
  ⟨rfl, rfl⟩

theorem witness_HardwareResetUnconfigures :
    (waiting [.hardwareReset, .request abcRequest]).refusedMark = none
      ∧ (waiting [.hardwareReset, .request abcRequest]).inputs = .hardwareReset :: [.request abcRequest] := ⟨rfl, rfl⟩

theorem witness_RefusalMarkIsSticky :
    step (waiting [.request abcRequest] Sponge.atReset) = .refused .unconfigured
      ∧ ((at' (sponge 136)).markRefused .unconfigured).refusedMark = some .unconfigured := ⟨rfl, rfl⟩

theorem witness_WaitingRequestsAreServedInOrder :
    (waiting (requestsFor [.init 136#56, .absorb abcMessage, .squeeze 1#56])).refusedMark = none
      ∧ (waiting (requestsFor [.init 136#56, .absorb abcMessage, .squeeze 1#56])).inputs
          = requestsFor [.init 136#56, .absorb abcMessage, .squeeze 1#56]
      ∧ ∀ i ∈ [Instr.init 136#56, .absorb abcMessage, .squeeze 1#56], i.WellFormed := ⟨rfl, rfl, by decide⟩

/-- A request, a reset and an idle step. -/
theorem witness_StepKeepsInvariant :
    (∃ t, (waiting [.request abcRequest]).Inv ∧ step (waiting [.request abcRequest]) = .next t)
      ∧ (∃ t, (waiting [.hardwareReset]).Inv ∧ step (waiting [.hardwareReset]) = .next t)
      ∧ (∃ t, (waiting []).Inv ∧ step (waiting []) = .next t) := by
  refine ⟨⟨_, ?_, rfl⟩, ⟨_, ?_, rfl⟩, ⟨_, ?_, rfl⟩⟩ <;> (unfold State.Inv Sponge.Inv; decide)

theorem witness_UnspecifiedResetStateIsUnobservable :
    State.reset.sponge.configured = false
      ∧ ({ squeezing 136 (everyLane 1#64) with configured := false } : Sponge).configured = false := ⟨rfl, rfl⟩

/-- An OK response to an ABSORB, and an error. -/
theorem witness_OpCounterCountsCompletedSpongeOps :
    (∃ t r, exec (.absorb abcMessage) (at' (sponge 136)) = .next t
        ∧ t.responses = (at' (sponge 136)).responses ++ [r] ∧ r.status = 0#2)
      ∧ (∃ t r, exec (.absorb [1#8]) (at' (sponge 136)) = .next t
        ∧ t.responses = (at' (sponge 136)).responses ++ [r] ∧ r.status = 1#2) :=
  ⟨⟨_, _, rfl, rfl, rfl⟩, ⟨_, _, rfl, rfl, rfl⟩⟩

/-- Each clause, the rates just outside the range and one that is no multiple of 8 among them. -/
theorem witness_RefusedExactlyWhenNotAdmitted :
    ((Instr.squeeze 0#56).usesSponge = true ∧ State.reset.sponge.configured = false)
      ∧ ((Instr.absorb []).usesSponge = true ∧ (sponge 0).configured = true
          ∧ ¬ ((sponge 0).rateBytes.toNat % 8 = 0 ∧ 8 ≤ (sponge 0).rateBytes.toNat ∧ (sponge 0).rateBytes.toNat ≤ 200))
      ∧ ¬ ((sponge 208).rateBytes.toNat % 8 = 0 ∧ 8 ≤ (sponge 208).rateBytes.toNat
          ∧ (sponge 208).rateBytes.toNat ≤ 200)
      ∧ ¬ ((sponge 199).rateBytes.toNat % 8 = 0 ∧ 8 ≤ (sponge 199).rateBytes.toNat
          ∧ (sponge 199).rateBytes.toNat ≤ 200)
      ∧ (Instr.init 7#56).usesSponge = false
      ∧ ((sponge 200).configured = true ∧ (sponge 200).rateBytes.toNat % 8 = 0 ∧ 8 ≤ (sponge 200).rateBytes.toNat
          ∧ (sponge 200).rateBytes.toNat ≤ 200) := by decide

/-- A next state of each instruction, for the statements about any instruction's next state. -/
theorem witness_PhaseTransitions :
    (∃ t, exec (.init 72#56) (at' (squeezing 136)) = .next t)
      ∧ (∃ t, exec (.absorb abcMessage) (at' (sponge 136 136)) = .next t)
      ∧ (∃ t, exec (.squeeze 3#56) (at' (sponge 136)) = .next t) :=
  ⟨⟨_, rfl⟩, ⟨_, exec_absorb_of_accepts witness_AcceptsAbsorb.1⟩, ⟨_, exec_squeeze_of_admits (admits_136 _ _)⟩⟩

theorem witness_OnlyInitReconfigures :
    ∃ t, exec (.init 72#56) (at' (squeezing 136)) = .next t
      ∧ t.sponge.rateBytes ≠ (at' (squeezing 136)).sponge.rateBytes
      ∧ (at' (squeezing 136)).sponge.phase = .squeezing ∧ t.sponge.phase = .absorbing :=
  ⟨_, rfl, by decide, rfl, rfl⟩

/-- A next state in each of the two clauses about the draw counter. -/
theorem witness_EveryInstructionFrame :
    (∃ t, exec (.init 72#56) (at' (squeezing 136)) = .next t)
      ∧ (∃ t, exec (.absorb [1#8]) (at' (squeezing 136)) = .next t) := ⟨⟨_, rfl⟩, ⟨_, rfl⟩⟩

theorem witness_ErrorResponsesChangeNoState :
    ∃ t, exec (.absorb [1#8]) (at' (sponge 136)) = .next t
      ∧ t.responses = (at' (sponge 136)).responses ++ [.error .invalidLength] := ⟨_, rfl, rfl⟩

/-- The least and the greatest valid rate. -/
theorem witness_NothingIsRefusedAfterValidInit :
    ((8#56 : Operand).toNat % 8 = 0 ∧ 8 ≤ (8#56 : Operand).toNat ∧ (8#56 : Operand).toNat ≤ 200)
      ∧ ((200#56 : Operand).toNat % 8 = 0 ∧ 8 ≤ (200#56 : Operand).toNat ∧ (200#56 : Operand).toNat ≤ 200)
      ∧ (∀ i ∈ [Instr.absorb [1#8], .squeeze 1#56, .absorb abcMessage], i.usesSponge = true) := by decide

theorem witness_BootOrderGetsOnlyOkResponses :
    ((8#56 : Operand).toNat % 8 = 0 ∧ 8 ≤ (8#56 : Operand).toNat ∧ (8#56 : Operand).toNat ≤ 200)
      ∧ ((200#56 : Operand).toNat % 8 = 0 ∧ 8 ≤ (200#56 : Operand).toNat ∧ (200#56 : Operand).toNat ≤ 200)
      ∧ (∀ message ∈ [abcMessage, [], zeroBytes 16], message.length % 8 = 0) := by decide

/-- Under each boundary test, with the block as full as it can be on entry. -/
theorem witness_AbsorbCompletes :
    ((at' (sponge 136 136)).Inv ∧ (at' (sponge 136 136)).AcceptsAbsorb abcMessage)
      ∧ ((at' (sponge 136 128) .nonstrict).Inv ∧ (at' (sponge 136 128) .nonstrict).AcceptsAbsorb abcMessage) :=
  ⟨⟨witness_Inv.1, witness_AcceptsAbsorb.1⟩, ⟨witness_Inv.2.1, witness_AcceptsAbsorb.2.2⟩⟩

/-- A message that ends exactly at the block's end under `STRICT`. -/
theorem witness_AbsorbWithinBlockXorsWordsIntoLanes :
    (at' (sponge 136 128)).Inv ∧ (at' (sponge 136 128)).AcceptsAbsorb abcMessage
      ∧ more (at' (sponge 136 128)).params.absorbBoundary (sponge 136 128).rateBytes.toNat 128 abcMessage.length = false
      ∧ ∃ t, exec (.absorb abcMessage) (at' (sponge 136 128)) = .next t := by
  have ha : (at' (sponge 136 128)).AcceptsAbsorb abcMessage := ⟨admits_136 _ _, rfl, by decide⟩
  refine ⟨?_, ha, by decide, ⟨_, exec_absorb_of_accepts ha⟩⟩
  unfold State.Inv Sponge.Inv
  decide

/-- The same message under `NONSTRICT`, and a block already full under `STRICT`. -/
theorem witness_AbsorbPastBlockPermutesAndGoesOn :
    ((at' (sponge 136 128) .nonstrict).Inv ∧ (at' (sponge 136 128) .nonstrict).AcceptsAbsorb abcMessage
        ∧ more .nonstrict (sponge 136 128).rateBytes.toNat 128 abcMessage.length = true
        ∧ ∃ t, exec (.absorb abcMessage) (at' (sponge 136 128) .nonstrict) = .next t)
      ∧ ((at' (sponge 136 136)).Inv ∧ (at' (sponge 136 136)).AcceptsAbsorb abcMessage
        ∧ more .strict (sponge 136 136).rateBytes.toNat 136 abcMessage.length = true
        ∧ ∃ t, exec (.absorb abcMessage) (at' (sponge 136 136)) = .next t) :=
  ⟨⟨witness_Inv.2.1, witness_AcceptsAbsorb.2.2, by decide, ⟨_, exec_absorb_of_accepts witness_AcceptsAbsorb.2.2⟩⟩,
    ⟨witness_Inv.1, witness_AcceptsAbsorb.1, by decide, ⟨_, exec_absorb_of_accepts witness_AcceptsAbsorb.1⟩⟩⟩

theorem witness_AbsorbBadLengthGetsInvalidLength :
    (at' (sponge 8)).sponge.Admits ∧ (at' (sponge 8)).sponge.phase = .absorbing ∧ (zeroBytes 7).length % 8 ≠ 0 :=
  ⟨witness_Admits_at_the_ends_of_the_range.1, rfl, by decide⟩

theorem witness_AbsorbWhileSqueezingGetsInvalidState :
    (at' (squeezing 200)).sponge.Admits ∧ (at' (squeezing 200)).sponge.phase = .squeezing
      ∧ ([] : List Byte).length % 8 = 0 :=
  ⟨witness_Admits_at_the_ends_of_the_range.2.2.2, rfl, rfl⟩

/-- V-S5. -/
theorem witness_AbsorbBothErrorsGetsEitherCode :
    (at' (squeezing 200)).sponge.Admits ∧ (at' (squeezing 200)).sponge.phase = .squeezing
      ∧ (zeroBytes 5).length % 8 ≠ 0 :=
  ⟨witness_Admits_at_the_ends_of_the_range.2.2.2, rfl, by decide⟩

/-- A first part that fills the block, under each boundary test. -/
theorem witness_AbsorbIsIncremental :
    ((at' (sponge 136 136)).Inv ∧ (at' (sponge 136 136)).AcceptsAbsorb abcMessage ∧ (zeroBytes 16).length % 8 = 0)
      ∧ ((at' (sponge 136 128) .nonstrict).Inv ∧ (at' (sponge 136 128) .nonstrict).AcceptsAbsorb abcMessage
        ∧ ([] : List Byte).length % 8 = 0) :=
  ⟨⟨witness_Inv.1, witness_AcceptsAbsorb.1, by decide⟩, ⟨witness_Inv.2.1, witness_AcceptsAbsorb.2.2, rfl⟩⟩

theorem witness_AbsorbResponseShowsNoData : abcMessage.length = (zeroBytes 8).length := by decide

theorem witness_FirstSqueezeFinalizes :
    ((at' (sponge 8)).sponge.Admits ∧ (at' (sponge 8)).sponge.phase = .absorbing)
      ∧ ((at' (sponge 200)).sponge.Admits ∧ (at' (sponge 200)).sponge.phase = .absorbing) :=
  ⟨⟨witness_Admits_at_the_ends_of_the_range.1, rfl⟩, ⟨witness_Admits_at_the_ends_of_the_range.2.1, rfl⟩⟩

/-- A first call and a later one. -/
theorem witness_SqueezeCompletes : (at' (sponge 8)).sponge.Admits ∧ (at' (squeezing 200)).sponge.Admits :=
  ⟨witness_Admits_at_the_ends_of_the_range.1, witness_Admits_at_the_ends_of_the_range.2.2.2⟩

theorem witness_LaterEmptySqueezeChangesNothing :
    (at' (squeezing 8)).sponge.Admits ∧ (at' (squeezing 8)).sponge.phase = .squeezing :=
  ⟨witness_Admits_at_the_ends_of_the_range.2.2.1, rfl⟩

/-- A first call at rate 200 for one block: the lanes finalization leaves, a next state and its response. -/
theorem witness_SqueezeOutputBytes :
    ∃ (t : State) (start : Lanes) (perms cost : Nat) (out : List Byte),
      (∀ k, k < 25 → lane start k =
        if (at' (sponge 200)).sponge.phase = .absorbing ∧ k = (at' (sponge 200)).sponge.rateBytes.toNat / 8 - 1 then
          lane (at' (sponge 200)).sponge.lanes k ^^^ 0x8000000000000000#64
        else lane (at' (sponge 200)).sponge.lanes k)
      ∧ exec (.squeeze 1#56) (at' (sponge 200)) = .next t
      ∧ t.responses = (at' (sponge 200)).responses ++ [.ok perms cost out] :=
  ⟨_, _, _, _, _, fun k hk => lane_finalize _ k hk,
    exec_squeeze_of_admits witness_Admits_at_the_ends_of_the_range.2.1, squeeze_responses _ _⟩

/-- The largest sum the operand field holds. -/
theorem witness_SqueezeStreams :
    (at' (sponge 136)).sponge.Admits
      ∧ (BitVec.allOnes 56 : Operand).toNat = (BitVec.ofNat 56 (2 ^ 56 - 2) : Operand).toNat + (1#56 : Operand).toNat :=
  ⟨admits_136 _ _, by decide⟩

/-- Each of the two instructions. -/
theorem witness_ReportedCostsFitSixtyFourBits :
    ((at' (sponge 136 136)).Inv ∧ (Instr.absorb abcMessage).WellFormed ∧ (Instr.absorb abcMessage).usesSponge = true
        ∧ ∃ t perms cost out, exec (.absorb abcMessage) (at' (sponge 136 136)) = .next t
          ∧ t.responses = (at' (sponge 136 136)).responses ++ [.ok perms cost out])
      ∧ ((at' (sponge 136 136)).Inv ∧ (Instr.squeeze (BitVec.allOnes 56)).WellFormed
        ∧ (Instr.squeeze (BitVec.allOnes 56)).usesSponge = true
        ∧ ∃ t perms cost out, exec (.squeeze (BitVec.allOnes 56)) (at' (sponge 136 136)) = .next t
          ∧ t.responses = (at' (sponge 136 136)).responses ++ [.ok perms cost out]) :=
  ⟨⟨witness_Inv.1, by decide, rfl, _, _, _, _, exec_absorb_of_accepts witness_AcceptsAbsorb.1, absorb_responses _ _⟩,
    ⟨witness_Inv.1, rfl, rfl, _, _, _, _, exec_squeeze_of_admits (admits_136 _ _), squeeze_responses _ _⟩⟩

/-- Each of the three instructions. -/
theorem witness_PermutationCountsAreBounded :
    (at' (sponge 136 136)).Inv
      ∧ (∃ t perms cost out, exec (.init 0#56) (at' (sponge 136 136)) = .next t
        ∧ t.responses = (at' (sponge 136 136)).responses ++ [.ok perms cost out])
      ∧ (∃ t perms cost out, exec (.absorb abcMessage) (at' (sponge 136 136)) = .next t
        ∧ t.responses = (at' (sponge 136 136)).responses ++ [.ok perms cost out])
      ∧ (∃ t perms cost out, exec (.squeeze 3#56) (at' (sponge 136 136)) = .next t
        ∧ t.responses = (at' (sponge 136 136)).responses ++ [.ok perms cost out]) :=
  ⟨witness_Inv.1, ⟨_, _, _, _, rfl, rfl⟩,
    ⟨_, _, _, _, exec_absorb_of_accepts witness_AcceptsAbsorb.1, absorb_responses _ _⟩,
    ⟨_, _, _, _, exec_squeeze_of_admits (admits_136 _ _), squeeze_responses _ _⟩⟩

theorem witness_StateImageIsLittleEndian : 24 < 25 ∧ stateByte (onlyLane 24 0xAB00000000000000#64) 199 = 0xAB#8 := by
  decide

/-- The last word of the state image. -/
theorem witness_XorPlacesEachByteInOrder : 192 + abcMessage.length ≤ 200 ∧ 199 < 200 := by decide

theorem witness_ThetaXorsNeighbourParities :
    ∃ c d : Nat → Lane,
      (∀ x, x < 5 → c x = lane (onlyLane 0 1#64) x ^^^ lane (onlyLane 0 1#64) (x + 5) ^^^ lane (onlyLane 0 1#64) (x + 10)
        ^^^ lane (onlyLane 0 1#64) (x + 15) ^^^ lane (onlyLane 0 1#64) (x + 20))
      ∧ (∀ x, x < 5 → d x = c ((x + 4) % 5) ^^^ (c ((x + 1) % 5)).rotateLeft 1) :=
  ⟨_, _, fun _ _ => rfl, fun _ _ => rfl⟩

/-- The ends of each range the permutation's statements take: lanes, rounds, orbit positions and bits. -/
theorem witness_RhoRotatesLanesLeft : 0 < 25 ∧ 24 < 25 ∧ rhoOffsets.getD 2 0 = 62 := by decide

theorem witness_RhoOffsetsFollowTheOrbit : 0 < 24 ∧ 23 < 24 := by decide

theorem witness_PiMovesEachLane : 0 < 5 ∧ 4 < 5 := by decide

theorem witness_ChiCombinesRows : 0 < 5 ∧ 4 < 5 := by decide

theorem witness_IotaChangesLaneZeroOnly :
    (0 < 24 ∧ 23 < 24) ∧ (0 < 25 ∧ 24 < 25) ∧ roundConstants.getD 23 0#64 = 0x8000000080008008#64 := by decide

theorem witness_RoundConstantsFollowTheLfsr : (0 < 24 ∧ 23 < 24) ∧ (0 < 64 ∧ 63 < 64) := by decide

/-- The least and the greatest valid rate, under `STRICT`. -/
theorem witness_StrictEngineIsPaddedSponge :
    (at' Sponge.atReset).params.absorbBoundary = .strict
      ∧ ((8#56 : Operand).toNat % 8 = 0 ∧ 8 ≤ (8#56 : Operand).toNat ∧ (8#56 : Operand).toNat ≤ 200)
      ∧ ((200#56 : Operand).toNat % 8 = 0 ∧ 8 ≤ (200#56 : Operand).toNat ∧ (200#56 : Operand).toNat ≤ 200) := by
  decide

end Sys2Proof.Tests
end

section
/-! PROOFS. The family of 10_state.md: reset, the control state's invariant, the operation counter, and what a response
can show.  First the layer of facts the proofs share, then each statement. -/

namespace Sys2Proof.Machine

/-! ### What an instruction answers, admitted or not -/

/-- The instructions that do not use the sponge as it stands are the INITs (R61). -/
theorem eq_init_of_not_usesSponge {i : Instr} (hi : ¬ i.usesSponge = true) : ∃ r, i = .init r := by
  cases i with
  | init r => exact ⟨r, rfl⟩
  | absorb m => exact absurd rfl hi
  | squeeze n => exact absurd rfl hi

/-- An ABSORB or SQUEEZE that admission turns away is refused for admission's reason (R166, R167). -/
theorem exec_of_admission_some {i : Instr} {s : State} {why : Refusal} (hi : i.usesSponge = true)
    (h : admission s.sponge = some why) : exec i s = .refused why := by
  cases i with
  | init r => cases hi
  | absorb m => simp only [exec, execAbsorb, h]
  | squeeze n => simp only [exec, execSqueeze, h]

/-- Before any INIT, an ABSORB or SQUEEZE is refused as `Unconfigured` (R167). -/
theorem exec_of_unconfigured {i : Instr} {s : State} (hi : i.usesSponge = true) (h : s.sponge.configured = false) :
    exec i s = .refused .unconfigured :=
  exec_of_admission_some hi (admission_unconfigured h)

/-- The state an admitted ABSORB goes on to: one of its three error responses, or its own effect (R113, R114, R163). -/
def State.answerAbsorb (s : State) (m : List Byte) : State :=
  match badLength m, badPhase s.sponge with
  | true, true => s.raiseDrawn
  | true, false => s.raise .invalidLength
  | false, true => s.raise .invalidState
  | false, false => s.absorb m

/-- An admitted ABSORB answers `answerAbsorb`. -/
theorem exec_absorb_of_admission_none {m : List Byte} {s : State} (h : admission s.sponge = none) :
    exec (.absorb m) s = .next (s.answerAbsorb m) := by
  simp only [exec, execAbsorb, h, State.answerAbsorb]
  cases badLength m <;> cases badPhase s.sponge <;> rfl

/-- An ABSORB with a next state either was accepted, or got an error response that changed no state of the core
(R160, R164). -/
theorem exec_absorb_accepted_or_error {m : List Byte} {s t : State} (h : exec (.absorb m) s = .next t) :
    (s.AcceptsAbsorb m ∧ t = s.absorb m)
      ∨ ∃ kind, t.responses = s.responses ++ [.error kind]
          ∧ t.sponge = s.sponge ∧ t.opCounter = s.opCounter ∧ t.params = s.params := by
  obtain ⟨-, hacc | ⟨-, -, rfl⟩ | ⟨-, -, rfl⟩ | ⟨-, -, rfl⟩⟩ := exec_absorb_cases h
  · exact .inl hacc
  · exact .inr ⟨.invalidLength, rfl, rfl, rfl, rfl⟩
  · exact .inr ⟨.invalidState, rfl, rfl, rfl, rfl⟩
  · exact .inr ⟨Config.errorDraw s.draws, rfl, rfl, rfl, rfl⟩

/-! ### The invariant of the control state -/

/-- A valid rate is positive and a whole number of words (R27). -/
theorem Sponge.Admits.rate_spec {sp : Sponge} (h : sp.Admits) : 0 < sp.rate ∧ sp.rate % 8 = 0 := by
  obtain ⟨-, hvalid⟩ := h
  obtain ⟨h8, hmin, -⟩ := (validRate_iff _).1 hvalid
  exact ⟨Nat.lt_of_lt_of_le (by decide) hmin, h8⟩

/-- On an admitted sponge the invariant is R25's range of `pendingBytes`, and R123's zero while Squeezing. -/
theorem inv_iff_of_admits {b : AbsorbBoundary} {sp : Sponge} (h : sp.Admits) :
    sp.Inv b ↔ sp.pendingBytes % 8 = 0 ∧ sp.pendingBytes ≤ sp.rate
      ∧ (b = .nonstrict → sp.pendingBytes < sp.rate) ∧ (sp.phase = .squeezing → sp.pendingBytes = 0) := by
  obtain ⟨hc, hv⟩ := h
  simp [Sponge.Inv, hc, hv]

/-- With nothing pending an admitted sponge has the invariant. -/
theorem inv_of_pendingBytes_zero {b : AbsorbBoundary} {sp : Sponge} (h : sp.Admits) (hp : sp.pendingBytes = 0) :
    sp.Inv b := by
  have hr := h.rate_spec.1
  rw [inv_iff_of_admits h, hp]
  exact ⟨rfl, Nat.zero_le _, fun _ => hr, fun _ => rfl⟩

/-- The invariant says nothing before the first INIT (R34). -/
theorem inv_of_unconfigured {b : AbsorbBoundary} {sp : Sponge} (h : sp.configured = false) : sp.Inv b := by
  intro hc
  exact absurd (h.symm.trans hc) (by decide)

/-- INIT establishes the invariant, its rate valid or not (R111). -/
theorem inv_configure (b : AbsorbBoundary) (r : Operand) : (Sponge.configure r).Inv b := by
  cases hv : validRate r with
  | true => exact inv_of_pendingBytes_zero ⟨rfl, hv⟩ rfl
  | false =>
    intro _
    exact ⟨fun hv' => absurd (hv.symm.trans hv') (by decide), fun _ => ⟨rfl, rfl, rfl⟩⟩

/-- An accepted ABSORB leaves `pendingBytes` in its range: R120's closed form stays there. -/
theorem absorb_keeps_inv {s : State} {m : List Byte} (hinv : s.Inv) (hacc : s.AcceptsAbsorb m) : (s.absorb m).Inv := by
  obtain ⟨hadm, hphase, hlen⟩ := hacc
  obtain ⟨hpos, h8⟩ := hadm.rate_spec
  obtain ⟨hmod, hle, hlt, -⟩ := (inv_iff_of_admits hadm).1 hinv
  have hclosed : (s.absorb m).sponge.pendingBytes =
      closedPending s.params.absorbBoundary s.sponge.rate s.sponge.pendingBytes m.length :=
    (absorbAll_closed hpos ⟨s.sponge.lanes, s.sponge.pendingBytes, m, 0⟩ hle hlt).2
  obtain ⟨hmod', hle', hlt'⟩ := closedPending_range s.params.absorbBoundary hpos h8 hmod hlen hle
  have hadm' : (s.absorb m).sponge.Admits := hadm
  refine (inv_iff_of_admits hadm').2 ?_
  rw [hclosed]
  refine ⟨hmod', hle', hlt', fun hsq => ?_⟩
  rw [absorb_phase, hphase] at hsq
  cases hsq

/-- A SQUEEZE leaves nothing pending: finalization clears it, and a later SQUEEZE finds it clear (R123). -/
theorem squeeze_keeps_inv {s : State} (n : Nat) (hinv : s.Inv) (hadm : s.sponge.Admits) : (s.squeeze n).Inv := by
  obtain ⟨-, -, -, hsq⟩ := (inv_iff_of_admits hadm).1 hinv
  have hadm' : (s.squeeze n).sponge.Admits := by simpa [Sponge.Admits] using hadm
  refine inv_of_pendingBytes_zero hadm' ?_
  rw [squeeze_pendingBytes, finalize_pendingBytes]
  cases hp : s.sponge.phase with
  | absorbing => rfl
  | squeezing => exact hsq hp

/-- Every instruction keeps the invariant. -/
theorem exec_keeps_inv {i : Instr} {s t : State} (hinv : s.Inv) (h : exec i s = .next t) : t.Inv := by
  cases i with
  | init r => cases h; exact inv_configure _ r
  | absorb m =>
    obtain ⟨hacc, rfl⟩ | ⟨_, -, hsponge, -, hparams⟩ := exec_absorb_accepted_or_error h
    · exact absorb_keeps_inv hinv hacc
    · rw [State.Inv, hsponge, hparams]
      exact hinv
  | squeeze n =>
    obtain ⟨hadm, rfl⟩ := exec_squeeze_next h
    exact squeeze_keeps_inv _ hinv hadm

/-- Settles O14: a step is idle, a hardware reset or an instruction, and each of them keeps the invariant. -/
theorem stepKeepsInvariant : Obligations.StepKeepsInvariant := by
  intro s t hinv h
  obtain ⟨-, ⟨-, rfl⟩ | ⟨rest, -, rfl⟩ | ⟨q, rest, i, -, -, hexec⟩⟩ := step_next_cases h
  · exact hinv
  · exact inv_of_unconfigured rfl
  · exact exec_keeps_inv (s := s.withInputs rest) hinv hexec

/-! ### What reset leaves unspecified, and the operation counter -/

/-- Settles O15: INIT overwrites the whole sponge, and the other two instructions read only that it is unconfigured. -/
theorem unspecifiedResetStateIsUnobservable : Obligations.UnspecifiedResetStateIsUnobservable := by
  intro i s other counter hs hother
  by_cases hi : i.usesSponge = true
  · have hs' : exec i s = .refused .unconfigured := exec_of_unconfigured hi hs
    have hother' : exec i { s with sponge := other, opCounter := counter } = .refused .unconfigured :=
      exec_of_unconfigured hi hother
    rw [hs', hother']
  · obtain ⟨r, rfl⟩ := eq_init_of_not_usesSponge hi
    rfl

/-- A counter that moved by one from `start`, carried over to another start. -/
theorem counter_moved_by_one (counter start : BitVec 64) : counter + 1#64 = counter + (start + 1#64 - start) := by
  rw [BitVec.add_comm start, BitVec.add_sub_cancel]

/-- The counter of an admitted ABSORB moves by the same amount from any start, and nothing else depends on it (R32). -/
theorem answerAbsorb_with_opCounter (s : State) (m : List Byte) (counter : BitVec 64) :
    { s with opCounter := counter }.answerAbsorb m =
      { s.answerAbsorb m with opCounter := counter + ((s.answerAbsorb m).opCounter - s.opCounter) } := by
  have hsame : counter = counter + (s.opCounter - s.opCounter) := by simp
  have hmoved := counter_moved_by_one counter s.opCounter
  unfold State.answerAbsorb
  cases badLength m <;> cases badPhase s.sponge
  · exact congrArg (fun c => { s.absorb m with opCounter := c }) hmoved
  · exact congrArg (fun c => { s.raise .invalidState with opCounter := c }) hsame
  · exact congrArg (fun c => { s.raise .invalidLength with opCounter := c }) hsame
  · exact congrArg (fun c => { s.raiseDrawn with opCounter := c }) hsame

/-- The counter of a SQUEEZE moves by one from any start, and nothing else depends on it (R32). -/
theorem squeeze_with_opCounter (s : State) (n : Nat) (counter : BitVec 64) :
    { s with opCounter := counter }.squeeze n =
      { s.squeeze n with opCounter := counter + ((s.squeeze n).opCounter - s.opCounter) } :=
  congrArg (fun c => { s.squeeze n with opCounter := c }) (counter_moved_by_one counter s.opCounter)

/-- Settles O16: admission reads the sponge alone, so both runs are refused alike or both complete, and then the counter
moved by the same amount. -/
theorem opCounterIsUnobservable : Obligations.OpCounterIsUnobservable := by
  intro i s counter
  have hrefused {why : Refusal} (hi : i.usesSponge = true) (h : admission s.sponge = some why) :
      exec i s = .refused why ∧ exec i { s with opCounter := counter } = .refused why :=
    ⟨exec_of_admission_some hi h, exec_of_admission_some hi h⟩
  cases i with
  | init r => simp only [exec_init, respond_opCounter, withSponge_opCounter, BitVec.sub_self, BitVec.add_zero]; rfl
  | absorb m =>
    cases h : admission s.sponge with
    | some why =>
      obtain ⟨hs, ht⟩ := hrefused rfl h
      rw [hs, ht]
    | none =>
      rw [exec_absorb_of_admission_none h, exec_absorb_of_admission_none (s := { s with opCounter := counter }) h,
        answerAbsorb_with_opCounter]
  | squeeze n =>
    cases h : admission s.sponge with
    | some why =>
      obtain ⟨hs, ht⟩ := hrefused rfl h
      rw [hs, ht]
    | none =>
      have hadm := (admission_eq_none _).1 h
      rw [exec_squeeze_of_admits hadm, exec_squeeze_of_admits (s := { s with opCounter := counter }) hadm,
        squeeze_with_opCounter]

/-- No error response has status 0 (R160). -/
theorem error_status_ne_zero (kind : ErrorKind) : (Response.error kind).status ≠ 0#2 := by
  cases kind <;> decide

/-- An instruction with a next state added one response, and that response says whether the counter moved (R32, R67). -/
theorem exec_responses_and_opCounter {i : Instr} {s t : State} (h : exec i s = .next t) :
    ∃ r, t.responses = s.responses ++ [r]
      ∧ t.opCounter = if i.usesSponge = true ∧ r.status = 0#2 then s.opCounter + 1#64 else s.opCounter := by
  cases i with
  | init r => cases h; exact ⟨_, rfl, rfl⟩
  | absorb m =>
    obtain ⟨-, rfl⟩ | ⟨kind, hresp, -, hcount, -⟩ := exec_absorb_accepted_or_error h
    · exact ⟨_, absorb_responses s m, rfl⟩
    · exact ⟨_, hresp, by rw [hcount, if_neg fun hz => error_status_ne_zero kind hz.2]⟩
  | squeeze n =>
    obtain ⟨-, rfl⟩ := exec_squeeze_next h
    exact ⟨_, squeeze_responses s n.toNat, rfl⟩

/-- Settles O17: the one response added is the one whose status decides the counter. -/
theorem opCounterCountsCompletedSpongeOps : Obligations.OpCounterCountsCompletedSpongeOps := by
  intro i s t r h hresp
  obtain ⟨r', hresp', hcount⟩ := exec_responses_and_opCounter h
  obtain rfl : r = r' := by simpa using hresp.symm.trans hresp'
  exact hcount

/-! ### The control state -/

/-- An ABSORB or SQUEEZE leaves the rate alone, and the phase Squeezing where it was (R26, R112). -/
theorem exec_keeps_rate_and_squeezing {i : Instr} {s t : State} (hi : i.usesSponge = true) (h : exec i s = .next t) :
    t.sponge.rateBytes = s.sponge.rateBytes ∧ (s.sponge.phase = .squeezing → t.sponge.phase = .squeezing) := by
  cases i with
  | init r => cases hi
  | absorb m =>
    obtain ⟨-, rfl⟩ | ⟨_, -, hsponge, -, -⟩ := exec_absorb_accepted_or_error h
    · exact ⟨absorb_rateBytes s m, (absorb_phase s m).trans⟩
    · rw [hsponge]
      exact ⟨rfl, id⟩
  | squeeze n =>
    obtain ⟨-, rfl⟩ := exec_squeeze_next h
    exact ⟨squeeze_rateBytes s n.toNat, fun _ => squeeze_phase s n.toNat⟩

/-- Settles O20: an ABSORB or SQUEEZE keeps the rate and does not leave Squeezing, so the instruction is neither. -/
theorem onlyInitReconfigures : Obligations.OnlyInitReconfigures := by
  intro i s t h hchanged
  refine eq_init_of_not_usesSponge fun hi => ?_
  obtain ⟨hrate, hphase⟩ := exec_keeps_rate_and_squeezing hi h
  obtain hne | ⟨hs, ht⟩ := hchanged
  · exact hne hrate
  · rw [hphase hs] at ht
    cases ht

/-! ### What an ABSORB's response can show

The block loop is steered by `pendingBytes` and by how many message bytes are left, never by a lane or a byte. -/

/-- Two working values of ABSORB that agree in everything but the lanes and the bytes themselves. -/
structure AbsorbWork.SameCounts (w v : AbsorbWork) : Prop where
  pending : w.pending = v.pending
  length : w.rest.length = v.rest.length
  perms : w.perms = v.perms

/-- A pass of the block loop keeps the agreement. -/
theorem AbsorbWork.SameCounts.absorbPass {w v : AbsorbWork} (h : w.SameCounts v) (rate : Nat) :
    (absorbPass rate w).SameCounts (absorbPass rate v) where
  pending := rfl
  length := by rw [absorbPass_rest, absorbPass_rest, List.length_drop, List.length_drop, h.length, h.pending]
  perms := by rw [absorbPass_perms, absorbPass_perms, h.perms]

/-- Every run of the block loop keeps the agreement: its test takes the same way in both. -/
theorem AbsorbWork.SameCounts.absorbLoop (b : AbsorbBoundary) (rate fuel : Nat) {w v : AbsorbWork}
    (h : w.SameCounts v) : (absorbLoop b rate fuel w).SameCounts (absorbLoop b rate fuel v) := by
  induction fuel generalizing w v with
  | zero => exact h
  | succ fuel ih =>
    rw [Machine.absorbLoop, Machine.absorbLoop, h.pending, h.length]
    split
    · exact ih (h.absorbPass rate)
    · exact h

/-- The whole of an accepted ABSORB counts the same permutations. -/
theorem AbsorbWork.SameCounts.absorbAll_perms (b : AbsorbBoundary) (rate : Nat) {w v : AbsorbWork}
    (h : w.SameCounts v) : (absorbAll b rate w).perms = (absorbAll b rate v).perms := by
  have hloop := h.absorbLoop b rate (v.rest.length + 1)
  rw [absorbAll, absorbAll, h.length]
  exact hloop.perms

/-- An admitted ABSORB of another message of the same length, on other lanes, sends the same response. -/
theorem answerAbsorb_responses_congr {m m' : List Byte} (s : State) (lanes : Lanes) (hlen : m.length = m'.length) :
    (s.answerAbsorb m).responses =
      (State.answerAbsorb { s with sponge := { s.sponge with lanes := lanes } } m').responses := by
  have hbad : badLength m = badLength m' := by rw [badLength, badLength, hlen]
  have hcounts : AbsorbWork.SameCounts ⟨s.sponge.lanes, s.sponge.pendingBytes, m, 0⟩
      ⟨lanes, s.sponge.pendingBytes, m', 0⟩ := ⟨rfl, hlen, rfl⟩
  have hperms : (s.sponge.absorbWork s.params.absorbBoundary m).perms =
      (Sponge.absorbWork { s.sponge with lanes := lanes } s.params.absorbBoundary m').perms :=
    hcounts.absorbAll_perms s.params.absorbBoundary s.sponge.rate
  have hphase : badPhase { s.sponge with lanes := lanes } = badPhase s.sponge := rfl
  simp only [State.answerAbsorb, hbad, hphase]
  cases badLength m' <;> cases badPhase s.sponge
  · simp only [absorb_responses, hperms, hlen]
  · rfl
  · rfl
  · rfl

/-- Settles O33: admission reads neither lanes nor message, and an admitted ABSORB answers by counts alone. -/
theorem absorbResponseShowsNoData : Obligations.AbsorbResponseShowsNoData := by
  intro m m' lanes s hlen
  cases h : admission s.sponge with
  | some why =>
    rw [exec_of_admission_some (i := .absorb m) rfl h,
      exec_of_admission_some (i := .absorb m') (s := { s with sponge := { s.sponge with lanes := lanes } }) rfl h]
  | none =>
    rw [exec_absorb_of_admission_none h,
      exec_absorb_of_admission_none (s := { s with sponge := { s.sponge with lanes := lanes } }) h]
    exact answerAbsorb_responses_congr s lanes hlen

/-! ### Reset and INIT -/

/-- A step whose next input is a hardware reset takes it (R177, R181). -/
theorem step_hardwareReset {s : State} {rest : List Input} (hm : s.refusedMark = none)
    (hi : s.inputs = .hardwareReset :: rest) : step s = .next (s.withInputs rest).hardwareReset := by
  simp only [step, hm, hi]

/-- Settles O9: the reset replaces the sponge by an unconfigured one and leaves the port alone. -/
theorem hardwareResetUnconfigures : Obligations.HardwareResetUnconfigures := by
  intro s rest hm hi
  have hc : (s.withInputs rest).hardwareReset.sponge.configured = false := atReset_configured
  exact ⟨_, step_hardwareReset hm hi, hc, rfl, rfl, hm, rfl,
    fun _ => exec_of_unconfigured rfl hc, fun _ => exec_of_unconfigured rfl hc⟩

/-- Settles O12: the reset state's sponge is not configured, which is all that ABSORB and SQUEEZE need to be refused. -/
theorem resetIsUnconfigured : Obligations.ResetIsUnconfigured :=
  ⟨atReset_configured, reset_refusedMark,
    fun _ => exec_of_unconfigured rfl atReset_configured, fun _ => exec_of_unconfigured rfl atReset_configured,
    fun r => ⟨_, exec_init r State.reset⟩⟩

/-- Settles O25, with the zero lanes as the lanes left. -/
theorem initCompletesInEveryState : Obligations.InitCompletesInEveryState := by
  intro r s
  exact ⟨zeroLanes, fun k _ => lane_zeroLanes k, exec_init r s⟩

end Sys2Proof.Machine
end

section
/-! PROOFS. The family of 20_memory.md: the state image byte by byte, and the waiting requests served in order. -/

namespace Sys2Proof.Machine

/-! ### The state image (20_memory.md, sections 1 and 2) -/

/-- Bit `n` of a group of bytes read little-endian is bit `n mod 8` of byte `n div 8` (R44). -/
theorem getLsbD_littleEndian (bytes : List Byte) (n : Nat) (hn : n < 64) :
    (littleEndian bytes).getLsbD n = (bytes.getD (n / 8) 0#8).getLsbD (n % 8) := by
  induction bytes generalizing n with
  | nil => simp [littleEndian]
  | cons b bs ih =>
    by_cases hlow : n < 8
    · simp [littleEndian, hn, hlow, Nat.div_eq_of_lt hlow, Nat.mod_eq_of_lt hlow]
    · obtain ⟨m, rfl⟩ : ∃ m, n = m + 8 := ⟨n - 8, by omega⟩
      rw [show (m + 8) / 8 = m / 8 + 1 by omega, List.getD_cons_succ, Nat.add_mod_right, ← ih m (by omega)]
      simp [littleEndian, hn, BitVec.getLsbD_eq_getElem, show m < 64 by omega]

/-- A lane is its own eight bytes read little-endian (R42, R44). -/
theorem littleEndian_laneBytes (v : Lane) : littleEndian (laneBytes v) = v := by
  apply BitVec.eq_of_getLsbD_eq
  intro n hn
  have hbyte : (laneBytes v).getD (n / 8) 0#8 = laneByte v (n / 8) := by
    simp [laneBytes, List.getD_eq_getElem?_getD, show n / 8 < 8 by omega]
  rw [getLsbD_littleEndian _ _ hn, hbyte, getLsbD_laneByte, decide_eq_true (by omega), Bool.true_and, Nat.div_add_mod]

/-- Byte `j` of lane `k`, by its place in the state image (R41). -/
theorem stateByte_eq_laneByte (a : Lanes) (k : Nat) {j : Nat} (hj : j < 8) :
    stateByte a (8 * k + j) = laneByte (lane a k) j := by
  rw [stateByte, show (8 * k + j) / 8 = k by omega, show (8 * k + j) % 8 = j by omega]

/-- The eight bytes of the state image at lane `k` are the lane's bytes in order (R41, R42). -/
theorem stateBytes_eq_laneBytes (a : Lanes) (k : Nat) :
    (List.range 8).map (fun j => stateByte a (8 * k + j)) = laneBytes (lane a k) :=
  List.map_congr_left fun _ hj => stateByte_eq_laneByte a k (List.mem_range.1 hj)

/-- Settles O41: the eight bytes named are the lane's own, and those read little-endian are the lane. -/
theorem stateImageIsLittleEndian : Obligations.StateImageIsLittleEndian := by
  intro a k _
  exact ((congrArg littleEndian (stateBytes_eq_laneBytes a k)).trans (littleEndian_laneBytes _)).symm

/-- Settles O42, byte after byte: the run's first byte lands at its start, the others behind it. -/
theorem xorPlacesEachByteInOrder : Obligations.XorPlacesEachByteInOrder := by
  intro a start bytes hfit j hj
  induction bytes generalizing a start with
  | nil => rw [if_neg (by rw [List.length_nil]; omega)]; rfl
  | cons b bs ih =>
    rw [List.length_cons] at hfit ⊢
    rw [xorBytes, ih _ _ (by omega), stateByte_xorStateByte _ _ _ _ (by omega)]
    by_cases hfirst : j = start
    · subst hfirst
      simp
    · rw [if_neg hfirst]
      by_cases hrun : start + 1 ≤ j ∧ j < start + 1 + bs.length
      · rw [if_pos hrun, if_pos (by omega), show j - start = j - (start + 1) + 1 by omega, List.getD_cons_succ]
      · rw [if_neg hrun, if_neg (by omega)]

/-! ### The waiting requests (20_memory.md, sections 4 and 6) -/

/-- The request that spells a well-formed instruction decodes to it (R60 to R63, R73). -/
theorem decode_encode {i : Instr} (hi : i.WellFormed) : decode (encode i) = .ok i := by
  cases i with
  | init r => simp [decode, encode, opInit]
  | absorb m =>
    have hlen : (BitVec.ofNat 56 m.length).toNat = m.length :=
      (BitVec.toNat_ofNat ..).trans (Nat.mod_eq_of_lt ((wellFormed_absorb m).1 hi))
    simp [decode, encode, opInit, opAbsorb, -BitVec.toNat_ofNat, hlen]
  | squeeze n => simp [decode, encode, opInit, opAbsorb, opSqueeze]

/-- A step whose next input is a request runs the instruction it decodes to (R51, R73). -/
theorem step_request {s : State} {q : Request} {rest : List Input} {i : Instr} (hm : s.refusedMark = none)
    (hi : s.inputs = .request q :: rest) (hd : decode q = .ok i) : step s = exec i (s.withInputs rest) := by
  simp only [step, hm, hi, hd]

/-- An outcome with other inputs waiting in its next state, if it has one. -/
def resultWithInputs (waiting : List Input) : Result → Result
  | .next t => .next (t.withInputs waiting)
  | .fault f => .fault f
  | .refused why => .refused why

/-- No instruction reads the inputs still waiting, or changes them (R47, R51). -/
theorem exec_withInputs (i : Instr) (s : State) (waiting : List Input) :
    exec i (s.withInputs waiting) = resultWithInputs waiting (exec i s) := by
  have hrefused {why : Refusal} (hi : i.usesSponge = true) (h : admission s.sponge = some why) :
      exec i (s.withInputs waiting) = resultWithInputs waiting (exec i s) := by
    rw [exec_of_admission_some hi h, exec_of_admission_some (s := s.withInputs waiting) hi h]
    rfl
  cases i with
  | init r => rfl
  | absorb m =>
    cases h : admission s.sponge with
    | some why => exact hrefused rfl h
    | none =>
      rw [exec_absorb_of_admission_none h, exec_absorb_of_admission_none (s := s.withInputs waiting) h]
      simp only [State.answerAbsorb, withInputs_sponge]
      cases badLength m <;> cases badPhase s.sponge <;> rfl
  | squeeze n =>
    cases h : admission s.sponge with
    | some why => exact hrefused rfl h
    | none =>
      have hadm := (admission_eq_none _).1 h
      rw [exec_squeeze_of_admits hadm, exec_squeeze_of_admits (s := s.withInputs waiting) hadm]
      rfl

/-- No instruction with a next state writes the refusal mark (R165). -/
theorem exec_keeps_refusedMark {i : Instr} {s t : State} (h : exec i s = .next t) : t.refusedMark = s.refusedMark := by
  obtain ⟨r, -, rfl⟩ | ⟨m, -, -, ⟨-, rfl⟩ | ⟨-, -, rfl⟩ | ⟨-, -, rfl⟩ | ⟨-, -, rfl⟩⟩ | ⟨n, -, -, rfl⟩ :=
    exec_next_cases h <;> rfl

/-- Settles O11, by induction over the instructions: each step takes the first request and runs its instruction, which
neither reads nor changes the requests behind it. -/
theorem waitingRequestsAreServedInOrder : Obligations.WaitingRequestsAreServedInOrder := by
  intro is s hmark hinputs hwf
  induction is generalizing s with
  | nil => exact congrArg (fun l => Host.Outcome.next (s.withInputs l)) hinputs
  | cons i is ih =>
    obtain ⟨hi, his⟩ := List.forall_mem_cons.1 hwf
    have hstep : step s = resultWithInputs (requestsFor is) (exec i s) :=
      (step_request hmark hinputs (decode_encode hi)).trans (exec_withInputs i s _)
    have hserve : exec i { s with inputs := [] } = resultWithInputs [] (exec i s) := exec_withInputs i s []
    rw [List.length_cons, runSteps, serve, hstep, hserve]
    cases h : exec i s with
    | next t => exact ih (t.withInputs (requestsFor is)) ((exec_keeps_refusedMark h).trans hmark) rfl his
    | fault f => rfl
    | refused why => rfl

end Sys2Proof.Machine
end

section
/-! PROOFS. The family of 30_encoding.md: the decoder as one equation for each value of `OP`, the round trip, the padded
ABSORB, and the frame of every instruction. -/

namespace Sys2Proof.Machine

/-! ### What the decoder answers, by the fields of the command word (R73) -/

section decode
variable {q : Request}

/-- A nonzero `RSVD` is refused, whatever `OP` and the buffer are. -/
theorem decode_of_rsvdField_ne_zero (hr : rsvdField q.cmd ≠ 0#4) : decode q = .error .reservedField := by
  simp [decode, hr]

/-- `OP` 1 is INIT, of the operand, and carries no buffer (R61, R63). -/
theorem decode_of_opInit (hr : rsvdField q.cmd = 0#4) (ho : opField q.cmd = opInit) :
    decode q = if q.buf = [] then .ok (.init (operandField q.cmd)) else .error .bufferMismatch := by
  simp [decode, hr, ho, opInit, opAbsorb, opSqueeze]

/-- `OP` 2 is ABSORB, of the buffer, whose length is the operand (R61 to R63). -/
theorem decode_of_opAbsorb (hr : rsvdField q.cmd = 0#4) (ho : opField q.cmd = opAbsorb) :
    decode q =
      if q.buf.length = (operandField q.cmd).toNat then .ok (.absorb q.buf) else .error .bufferMismatch := by
  simp [decode, hr, ho, opInit, opAbsorb, opSqueeze]

/-- `OP` 3 is SQUEEZE, of the operand, and carries no buffer (R61, R63). -/
theorem decode_of_opSqueeze (hr : rsvdField q.cmd = 0#4) (ho : opField q.cmd = opSqueeze) :
    decode q = if q.buf = [] then .ok (.squeeze (operandField q.cmd)) else .error .bufferMismatch := by
  simp [decode, hr, ho, opInit, opAbsorb, opSqueeze]

/-- Every other `OP` is reserved (R64). -/
theorem decode_of_reserved_op (hr : rsvdField q.cmd = 0#4) (h1 : opField q.cmd ≠ opInit)
    (h2 : opField q.cmd ≠ opAbsorb) (h3 : opField q.cmd ≠ opSqueeze) : decode q = .error .reservedOpcode := by
  simp [decode, hr, h1, h2, h3]

/-- Every way a request can spell an instruction: `RSVD` is zero, and `OP`, operand and buffer are the instruction's
own. -/
theorem decode_ok_cases {i : Instr} (h : decode q = .ok i) :
    rsvdField q.cmd = 0#4 ∧
      ((opField q.cmd = opInit ∧ q.buf = [] ∧ i = .init (operandField q.cmd))
        ∨ (opField q.cmd = opAbsorb ∧ q.buf.length = (operandField q.cmd).toNat ∧ i = .absorb q.buf)
        ∨ (opField q.cmd = opSqueeze ∧ q.buf = [] ∧ i = .squeeze (operandField q.cmd))) := by
  by_cases hr : rsvdField q.cmd = 0#4
  · refine ⟨hr, ?_⟩
    by_cases h1 : opField q.cmd = opInit
    · rw [decode_of_opInit hr h1] at h
      split at h
      · next hbuf => cases h; exact .inl ⟨h1, hbuf, rfl⟩
      · cases h
    by_cases h2 : opField q.cmd = opAbsorb
    · rw [decode_of_opAbsorb hr h2] at h
      split at h
      · next hlen => cases h; exact .inr (.inl ⟨h2, hlen, rfl⟩)
      · cases h
    by_cases h3 : opField q.cmd = opSqueeze
    · rw [decode_of_opSqueeze hr h3] at h
      split at h
      · next hbuf => cases h; exact .inr (.inr ⟨h3, hbuf, rfl⟩)
      · cases h
    · cases (decode_of_reserved_op hr h1 h2 h3).symm.trans h
  · cases (decode_of_rsvdField_ne_zero hr).symm.trans h

/-- A request that spells an instruction is that instruction's encoding: its command word is made of the fields that were
read, and its buffer was read whole. -/
theorem encode_eq_of_decode_ok {i : Instr} (h : decode q = .ok i) : encode i = q := by
  obtain ⟨hr, hcases⟩ := decode_ok_cases h
  have hcmd := commandWord_of_fields q.cmd hr
  obtain ⟨cmd, buf⟩ := q
  obtain ⟨ho, hbuf, rfl⟩ | ⟨ho, hlen, rfl⟩ | ⟨ho, hbuf, rfl⟩ := hcases
  · rw [ho] at hcmd
    exact congrArg₂ Request.mk hcmd hbuf.symm
  · have harg : BitVec.ofNat 56 buf.length = operandField cmd := by
      simp only [hlen, BitVec.ofNat_toNat, BitVec.setWidth_eq]
    rw [ho, ← harg] at hcmd
    exact congrArg (Request.mk · buf) hcmd
  · rw [ho] at hcmd
    exact congrArg₂ Request.mk hcmd hbuf.symm

/-- The decoder gives well-formed instructions only: a buffer as long as the operand says fits the operand field. -/
theorem wellFormed_of_decode_ok {i : Instr} (h : decode q = .ok i) : i.WellFormed := by
  obtain ⟨-, ⟨-, -, rfl⟩ | ⟨-, hlen, rfl⟩ | ⟨-, -, rfl⟩⟩ := decode_ok_cases h
  · exact wellFormed_init _
  · exact (wellFormed_absorb _).2 (hlen ▸ (operandField q.cmd).isLt)
  · exact wellFormed_squeeze _

end decode

/-- Settles O1: what the decoder accepts is well-formed and is its instruction's encoding, and the encoding of a
well-formed instruction decodes to it. -/
theorem decodeAndEncodeAreInverse : Obligations.DecodeAndEncodeAreInverse := by
  intro q i
  constructor
  · exact fun h => ⟨wellFormed_of_decode_ok h, encode_eq_of_decode_ok h⟩
  · rintro ⟨hi, rfl⟩
    exact decode_encode hi

/-! ### The decoding summary in arithmetic (R60, R73) -/

/-- `OP` as arithmetic on the command word. -/
theorem opField_eq_iff (cmd : CommandWord) (op : BitVec 4) : opField cmd = op ↔ cmd.toNat % 16 = op.toNat := by
  rw [← BitVec.toNat_inj, opField_toNat]

/-- `RSVD` is zero, as arithmetic on the command word. -/
theorem rsvdField_eq_zero_iff (cmd : CommandWord) : rsvdField cmd = 0#4 ↔ cmd.toNat / 16 % 16 = 0 := by
  rw [← BitVec.toNat_inj, rsvdField_toNat]
  rfl

/-- `OPERAND` as arithmetic on the command word. -/
theorem operandField_eq_ofNat (cmd : CommandWord) : operandField cmd = BitVec.ofNat 56 (cmd.toNat / 256) := by
  rw [← operandField_toNat, BitVec.ofNat_toNat, BitVec.setWidth_eq]

/-- Settles O2: one equation of the decoder for each clause, its fields turned into arithmetic. -/
theorem decodeFollowsDecodingSummary : Obligations.DecodeFollowsDecodingSummary := by
  intro q
  simp only [ne_eq, ← rsvdField_eq_zero_iff, ← operandField_eq_ofNat]
  refine ⟨decode_of_rsvdField_ne_zero, fun hr ho => ?_, fun hr ho => ?_, fun hr ho => ?_, fun hr ho => ?_⟩
  · exact decode_of_opInit hr ((opField_eq_iff _ _).2 ho)
  · rw [← operandField_toNat]
    exact decode_of_opAbsorb hr ((opField_eq_iff _ _).2 ho)
  · exact decode_of_opSqueeze hr ((opField_eq_iff _ _).2 ho)
  · have hne (op : BitVec 4) (hop : 1 ≤ op.toNat ∧ op.toNat ≤ 3) : opField q.cmd ≠ op := by
      rw [ne_eq, opField_eq_iff]
      omega
    exact decode_of_reserved_op hr (hne _ (by decide)) (hne _ (by decide)) (hne _ (by decide))

/-! ### `absorb.pad` (R70) -/

/-- The padding is at most 7 zero bytes. -/
theorem padZeros_le (length : Nat) : padZeros length ≤ 7 := by
  unfold padZeros
  omega

/-- The padding brings the length to a whole number of words. -/
theorem length_add_padZeros (length : Nat) : (length + padZeros length) % 8 = 0 := by
  unfold padZeros
  omega

/-- The padding is counted from the bytes and the domain byte together. -/
theorem padMessage_length (message : List Byte) (domain : Byte) :
    (padMessage message domain).length = message.length + 1 + padZeros (message.length + 1) := by
  simp only [padMessage, List.length_append, List.length_cons, List.length_replicate]
  omega

/-- An `absorb.pad` line whose message fits the operand field assembles to the encoding of its ABSORB. -/
theorem assemble_absorbPad {message : List Byte} {domain : Byte} (h : (padMessage message domain).length < 2 ^ 56) :
    assemble (.absorbPad message domain) = some (encode (.absorb (padMessage message domain))) :=
  if_pos h

/-- Settles O4: the padding's arithmetic, and the round trip for the ABSORB the line assembles to. -/
theorem absorbPadExpandsToLeastPadding : Obligations.AbsorbPadExpandsToLeastPadding := by
  intro message domain
  refine ⟨⟨_, padZeros_le (message.length + 1), ?_⟩, ?_, fun h => ?_⟩
  · simp [padMessage]
  · rw [padMessage_length]
    exact length_add_padZeros _
  · rw [assemble_absorbPad h, Option.map_some, decode_encode ((wellFormed_absorb _).2 h)]

/-! ### The frame of every instruction (R14, R67, R163) -/

/-- No response has status 3 (R67). -/
theorem status_ne_three (r : Response) : r.status ≠ 3#2 := by
  cases r with
  | ok perms cost out => exact (by decide : (0#2 : BitVec 2) ≠ 3#2)
  | error kind => cases kind <;> decide

/-- No instruction with a next state changes the inputs still waiting (R51) or the parameters (R9). -/
theorem exec_keeps_inputs_and_params {i : Instr} {s t : State} (h : exec i s = .next t) :
    t.inputs = s.inputs ∧ t.params = s.params := by
  obtain ⟨r, -, rfl⟩ | ⟨m, -, -, ⟨-, rfl⟩ | ⟨-, -, rfl⟩ | ⟨-, -, rfl⟩ | ⟨-, -, rfl⟩⟩ | ⟨n, -, -, rfl⟩ :=
    exec_next_cases h <;> exact ⟨rfl, rfl⟩

/-- The draw counter moves only for an ABSORB whose two checks both fail, and then by one (R163). -/
theorem exec_draws {i : Instr} {s t : State} (h : exec i s = .next t) :
    t.draws = s.draws
      ∨ (t.draws = s.draws + 1 ∧ s.sponge.phase = .squeezing ∧ ∃ m, i = .absorb m ∧ m.length % 8 ≠ 0) := by
  obtain ⟨r, -, rfl⟩ | ⟨m, rfl, -, ⟨-, rfl⟩ | ⟨-, -, rfl⟩ | ⟨-, -, rfl⟩ | ⟨hphase, hlen, rfl⟩⟩ | ⟨n, -, -, rfl⟩ :=
    exec_next_cases h
  · exact .inl rfl
  · exact .inl rfl
  · exact .inl rfl
  · exact .inl rfl
  · exact .inr ⟨rfl, hphase, m, rfl, hlen⟩
  · exact .inl rfl

/-- Settles O21: the frame of the port, the one response with a status it can have, and the draw counter. -/
theorem everyInstructionFrame : Obligations.EveryInstructionFrame := by
  intro i s t h
  obtain ⟨hinputs, hparams⟩ := exec_keeps_inputs_and_params h
  obtain ⟨r, hresp, -⟩ := exec_responses_and_opCounter h
  exact ⟨hinputs, exec_keeps_refusedMark h, hparams, ⟨r, hresp, status_ne_three r⟩, exec_draws h⟩

end Sys2Proof.Machine
end

section
/-! PROOFS. The family of 40_permutation.md: what each of the five steps does to a lane, the two tables against their
generators, the rounds in order, and the bijection: each step is injective, and the lane arrays are finitely many. -/

namespace Sys2Proof.Machine

/-! ### Rotation (R11) -/

/-- Every bit of a rotated lane, from the bit `n` places below it, counted around the lane. -/
theorem getLsbD_rotateLeft_lane (v : Lane) (n : Nat) {i : Nat} (hi : i < 64) :
    (v.rotateLeft n).getLsbD i = v.getLsbD ((i + (64 - n % 64)) % 64) := by
  rw [BitVec.getLsbD_rotateLeft]
  by_cases h : i < n % 64
  · have hback : (i + (64 - n % 64)) % 64 = 64 - n % 64 + i := by omega
    simp [h, hback]
  · have hstay : (i + (64 - n % 64)) % 64 = i - n % 64 := by omega
    simp [h, hi, hstay]

theorem rotateLeft_xor (u v : Lane) (n : Nat) : (u ^^^ v).rotateLeft n = u.rotateLeft n ^^^ v.rotateLeft n := by
  apply BitVec.eq_of_getLsbD_eq
  intro i hi
  simp only [getLsbD_rotateLeft_lane _ _ hi, BitVec.getLsbD_xor]

theorem rotateLeft_rotateLeft (v : Lane) (m n : Nat) : (v.rotateLeft m).rotateLeft n = v.rotateLeft (m + n) := by
  apply BitVec.eq_of_getLsbD_eq
  intro i hi
  have hmod (j : Nat) : j % 64 < 64 := Nat.mod_lt _ (by decide)
  rw [getLsbD_rotateLeft_lane _ _ hi, getLsbD_rotateLeft_lane _ _ (hmod _), getLsbD_rotateLeft_lane _ _ hi]
  congr 1
  omega

theorem rotateLeft_lane_width (v : Lane) : v.rotateLeft 64 = v := by
  apply BitVec.eq_of_getLsbD_eq
  intro i hi
  rw [getLsbD_rotateLeft_lane _ _ hi]
  congr 1
  omega

/-- A rotation is undone by rotating on to the whole width. -/
theorem rotateLeft_injective {n : Nat} (hn : n ≤ 64) : Function.Injective fun v : Lane => v.rotateLeft n := by
  refine Function.LeftInverse.injective (g := fun v => v.rotateLeft (64 - n)) fun v => ?_
  simp only [rotateLeft_rotateLeft, Nat.add_sub_cancel' hn, rotateLeft_lane_width]

/-! ### Lanes by column and row (R11, R12, R21) -/

theorem laneAt_eq_lane (a : Lanes) {x y : Nat} (hx : x < 5) (hy : y < 5) : laneAt a x y = lane a (x + 5 * y) := by
  rw [laneAt, Nat.mod_eq_of_lt hx, Nat.mod_eq_of_lt hy]

/-- Columns and rows count mod 5 only. -/
theorem laneAt_congr (a : Lanes) {x y x' y' : Nat} (hx : x % 5 = x' % 5) (hy : y % 5 = y' % 5) :
    laneAt a x y = laneAt a x' y' := by
  rw [laneAt, hx, hy, laneAt]

theorem laneAt_tabulate (f : Nat → Lane) (x y : Nat) : laneAt (tabulate f) x y = f (x % 5 + 5 * (y % 5)) :=
  lane_tabulate f _ (by omega)

/-- Two lane arrays that agree at every column and row are the same. -/
theorem lanes_ext_laneAt {a b : Lanes} (h : ∀ x y, laneAt a x y = laneAt b x y) : a = b := by
  apply lanes_ext
  intro k hk
  have hcoord := h (k % 5) (k / 5)
  rwa [laneAt_eq_lane _ (by omega) (by omega), laneAt_eq_lane _ (by omega) (by omega), Nat.mod_add_div] at hcoord

/-! ### Theta (R83) -/

theorem columnParity_mod_five (a : Lanes) (x : Nat) : columnParity a (x % 5) = columnParity a x := by
  simp only [columnParity, laneAt, Nat.mod_mod]

/-- R83's formula for `D`, with the library's rotation. -/
theorem thetaEffect_eq (a : Lanes) (x : Nat) :
    thetaEffect a x = columnParity a (x + 4) ^^^ (columnParity a (x + 1)).rotateLeft 1 := by
  rw [thetaEffect, rotl64_eq_rotateLeft _ (by decide), columnParity_mod_five, columnParity_mod_five]

theorem thetaEffect_mod_five (a : Lanes) (x : Nat) : thetaEffect a (x % 5) = thetaEffect a x := by
  simp [thetaEffect]

theorem laneAt_thetaStep (a : Lanes) (x y : Nat) : laneAt (thetaStep a) x y = laneAt a x y ^^^ thetaEffect a x := by
  have hcol : (x % 5 + 5 * (y % 5)) % 5 = x % 5 := by omega
  have hx : x % 5 < 5 := Nat.mod_lt _ (by decide)
  rw [thetaStep, laneAt_tabulate, hcol, ← thetaEffect_mod_five a x, laneAt]
  congr 1
  generalize x % 5 = c at hx
  interval_cases c <;> rfl

/-- Settles O43: the given `c` and `d` are the model's column parities and theta effects. -/
theorem thetaXorsNeighbourParities : Obligations.ThetaXorsNeighbourParities := by
  intro a c d hc hd x y hx hy
  have hparity (x : Nat) : columnParity a x = c (x % 5) := by
    have hlt : x % 5 < 5 := Nat.mod_lt _ (by decide)
    rw [hc _ hlt, ← columnParity_mod_five]
    simp [columnParity, laneAt]
  have heffect : thetaEffect a x = d x := by
    rw [thetaEffect_eq, hparity, hparity, hd x hx]
  rw [← laneAt_eq_lane _ hx hy, laneAt_thetaStep, heffect, laneAt_eq_lane _ hx hy]

/-! ### Rho (R84, R85) -/

theorem lane_rhoStep (a : Lanes) {k : Nat} (hk : k < 25) :
    lane (rhoStep a) k = (lane a k).rotateLeft (rhoOffsets.getD k 0) := by
  rw [rhoStep, lane_tabulate _ _ hk, rotl64_eq_rotateLeft _ (rhoOffsets_lt k)]

/-- Settles O44: lane 0 is the lane whose offset is 0. -/
theorem rhoRotatesLanesLeft : Obligations.RhoRotatesLanesLeft :=
  fun _ => ⟨rfl, fun _ => lane_rhoStep _⟩

/-- Settles O45, entry by entry of the table. -/
theorem rhoOffsetsFollowTheOrbit : Obligations.RhoOffsetsFollowTheOrbit := by
  unfold Obligations.RhoOffsetsFollowTheOrbit
  decide

/-! ### Pi (R86) -/

/-- The place that pi moves lane `(x, y)` to has that lane as its source. -/
theorem piSources_destination :
    ∀ x < 5, ∀ y < 5, piSources.getD (y + 5 * ((2 * x + 3 * y) % 5)) 0 = x + 5 * y := by
  decide

/-- Settles O46: the source list holds pi's map. -/
theorem piMovesEachLane : Obligations.PiMovesEachLane := by
  intro a x y hx hy
  rw [piStep, lane_tabulate _ _ (by omega), piSources_destination x hx y hy]

/-! ### Chi (R87) -/

/-- Chi's output lane, from the input lane and the two to its right. -/
def chiLane (u v w : Lane) : Lane := u ^^^ (~~~ v &&& w)

theorem laneAt_chiStep (a : Lanes) (x y : Nat) :
    laneAt (chiStep a) x y = chiLane (laneAt a x y) (laneAt a (x + 1) y) (laneAt a (x + 2) y) := by
  have hright (d : Nat) :
      laneAt a (x % 5 + 5 * (y % 5) + d) ((x % 5 + 5 * (y % 5)) / 5) = laneAt a (x + d) y :=
    laneAt_congr a (by omega) (by omega)
  rw [chiStep, laneAt_tabulate, hright, hright]
  rfl

/-- Settles O47: the columns to the right are taken mod 5. -/
theorem chiCombinesRows : Obligations.ChiCombinesRows := by
  intro a x y hx hy
  have hright (d : Nat) : laneAt a (x + d) y = lane a ((x + d) % 5 + 5 * y) := by
    rw [laneAt, Nat.mod_eq_of_lt hy]
  rw [← laneAt_eq_lane _ hx hy, ← laneAt_eq_lane _ hx hy, laneAt_chiStep, hright, hright, chiLane]

/-! ### Iota (R88, R89) -/

theorem lane_iotaStep (a : Lanes) (ir k : Nat) :
    lane (iotaStep a ir) k = if k = 0 then lane a 0 ^^^ roundConstants.getD ir 0#64 else lane a k := by
  simp [iotaStep, lane_setLane]

/-- Settles O48. -/
theorem iotaChangesLaneZeroOnly : Obligations.IotaChangesLaneZeroOnly :=
  fun a ir k _ _ => lane_iotaStep a ir k

/-- Settles O49, bit by bit of the 24 constants. -/
theorem roundConstantsFollowTheLfsr : Obligations.RoundConstantsFollowTheLfsr := by
  unfold Obligations.RoundConstantsFollowTheLfsr
  decide

/-! ### The rounds in order (R81, R90, R98) -/

/-- An even number of rounds, two at a time. -/
theorem firstRounds_two_mul (a : Lanes) (n : Nat) :
    firstRounds a (2 * n) =
      (List.range n).foldl (fun b k => keccakRound (keccakRound b (2 * k)) (2 * k + 1)) a := by
  induction n with
  | zero => rfl
  | succ n ih =>
    rw [List.range_succ, List.foldl_append, ← ih]
    rfl

/-- Settles O50: the 24 rounds are 12 pairs. -/
theorem permuteIsTwelveRoundPairs : Obligations.PermuteIsTwelveRoundPairs :=
  fun a => firstRounds_two_mul a 12

/-! ### Theta is injective

Two inputs with the same image have column parities whose difference `e` meets `e x = e (x - 1) ^ ROTL64(e (x + 1), 1)`
(`x - 1` is `x + 4` mod 5).  Used on itself six times this becomes the same relation with a rotation by the whole lane,
and that one has the zero solution only. -/

/-- A column has five lanes, an odd number, so theta changes its parity by `D` too. -/
theorem columnParity_thetaStep (a : Lanes) (x : Nat) :
    columnParity (thetaStep a) x = columnParity a x ^^^ thetaEffect a x := by
  simp only [columnParity, laneAt_thetaStep]
  grind

/-- The difference of two lane arrays' parities of column `x`. -/
def parityDifference (a b : Lanes) (x : Nat) : Lane := columnParity a x ^^^ columnParity b x

theorem parityDifference_mod_five (a b : Lanes) (x : Nat) :
    parityDifference a b (x % 5) = parityDifference a b x := by
  simp only [parityDifference, columnParity_mod_five]

/-- Each column is the column `d` to its left (`4 * d` to its right) XORed with the one `d` to its right, the latter
rotated by `r`. -/
def ThetaRelation (e : Nat → Lane) (d r : Nat) : Prop :=
  ∀ x, e x = e (x + 4 * d) ^^^ (e (x + d)).rotateLeft r

theorem parityDifference_thetaRelation {a b : Lanes} (h : thetaStep a = thetaStep b) :
    ThetaRelation (parityDifference a b) 1 1 := by
  intro x
  have hparity : columnParity a x ^^^ thetaEffect a x = columnParity b x ^^^ thetaEffect b x := by
    rw [← columnParity_thetaStep, ← columnParity_thetaStep, h]
  have heffects : parityDifference a b x = thetaEffect a x ^^^ thetaEffect b x := by
    apply BitVec.xor_eq_zero_iff.1
    calc parityDifference a b x ^^^ (thetaEffect a x ^^^ thetaEffect b x)
        = (columnParity a x ^^^ thetaEffect a x) ^^^ (columnParity b x ^^^ thetaEffect b x) := by
          unfold parityDifference
          ac_rfl
      _ = 0#64 := by rw [hparity, BitVec.xor_self]
  rw [heffects, thetaEffect_eq, thetaEffect_eq, parityDifference, parityDifference, rotateLeft_xor]
  ac_rfl

/-- The relation used on itself: its two middle terms are equal and cancel. -/
theorem ThetaRelation.doubled {e : Nat → Lane} {d r : Nat} (h : ThetaRelation e d r) :
    ThetaRelation e (2 * d) (2 * r) := by
  intro x
  have hleft : e (x + 4 * d) = e (x + 4 * (2 * d)) ^^^ (e (x + 5 * d)).rotateLeft r := by
    rw [h (x + 4 * d)]
    ring_nf
  have hright : e (x + d) = e (x + 5 * d) ^^^ (e (x + 2 * d)).rotateLeft r := by
    rw [h (x + d)]
    ring_nf
  calc e x
      = e (x + 4 * d) ^^^ (e (x + d)).rotateLeft r := h x
    _ = e (x + 4 * (2 * d)) ^^^ (e (x + 5 * d)).rotateLeft r
          ^^^ ((e (x + 5 * d)).rotateLeft r ^^^ (e (x + 2 * d)).rotateLeft (2 * r)) := by
        rw [hleft, hright, rotateLeft_xor, rotateLeft_rotateLeft, ← two_mul]
    _ = e (x + 4 * (2 * d)) ^^^ (e (x + 2 * d)).rotateLeft (2 * r) := by
        rw [BitVec.xor_assoc, ← BitVec.xor_assoc ((e (x + 5 * d)).rotateLeft r), BitVec.xor_self, BitVec.zero_xor]

/-- The relation used on itself `n` times. -/
theorem ThetaRelation.two_pow {e : Nat → Lane} (h : ThetaRelation e 1 1) (n : Nat) :
    ThetaRelation e (2 ^ n) (2 ^ n) := by
  induction n with
  | zero => exact h
  | succ n ih =>
    rw [Nat.pow_succ']
    exact ih.doubled

/-- Around five columns the relation has the zero solution only: once its rotation is by the whole lane, each column is
the XOR of its two neighbours, so columns three apart are equal, and then all of them are. -/
theorem ThetaRelation.eq_zero {e : Nat → Lane} (h : ThetaRelation e 1 1) (hmod : ∀ x, e (x % 5) = e x) (x : Nat) :
    e x = 0#64 := by
  have hcongr {x x' : Nat} (hx : x % 5 = x' % 5) : e x = e x' := by rw [← hmod x, hx, hmod]
  have hneighbours (x : Nat) : e (x + 1) = e (x + 2) ^^^ e x := by
    have h64 := h.two_pow 6 (x + 1)
    have hright : e (x + 1 + 4 * 2 ^ 6) = e (x + 2) := hcongr (by omega)
    have hleft : e (x + 1 + 2 ^ 6) = e x := hcongr (by omega)
    rw [hright, hleft] at h64
    exact h64.trans (congrArg _ (rotateLeft_lane_width _))
  have hthree (x : Nat) : e (x + 3) = e x := by
    apply BitVec.xor_eq_zero_iff.1
    have hfold : e (x + 1) ^^^ (e (x + 3) ^^^ e x) = e (x + 1) := by
      conv => rhs; rw [hneighbours x, hneighbours (x + 1)]
      ac_rfl
    simpa using hfold
  have hone (x : Nat) : e (x + 1) = e x := by
    rw [← hthree x, ← hthree (x + 3)]
    exact hcongr (by omega)
  rw [← hone x, hneighbours x, hone (x + 1), hone x, BitVec.xor_self]

theorem thetaStep_injective : Function.Injective thetaStep := by
  intro a b h
  have hparity (x : Nat) : columnParity a x = columnParity b x :=
    BitVec.xor_eq_zero_iff.1 ((parityDifference_thetaRelation h).eq_zero (parityDifference_mod_five a b) x)
  apply lanes_ext_laneAt
  intro x y
  have hlane := congrArg (laneAt · x y) h
  simp only [laneAt_thetaStep, thetaEffect_eq, hparity] at hlane
  exact (BitVec.xor_left_inj _).1 hlane

/-! ### The other steps are injective -/

theorem rhoStep_injective : Function.Injective rhoStep := by
  intro a b h
  apply lanes_ext
  intro k hk
  apply rotateLeft_injective (rhoOffsets_lt k).le
  have hlane := congrArg (lane · k) h
  simpa only [lane_rhoStep _ hk] using hlane

theorem piStep_injective : Function.Injective piStep := by
  intro a b h
  apply lanes_ext
  intro k hk
  rw [← Nat.mod_add_div k 5, ← piMovesEachLane a _ _ (by omega) (by omega), h,
    piMovesEachLane b _ _ (by omega) (by omega)]

/-- Chi's inverse on a row of five: chi's own formula, used twice on the outputs. -/
theorem chiLane_undo (p q r s t : Lane) :
    chiLane (chiLane p q r) (chiLane q r s) (chiLane (chiLane r s t) (chiLane s t p) (chiLane t p q)) = p := by
  apply BitVec.eq_of_getLsbD_eq
  intro i hi
  simp only [chiLane, BitVec.getLsbD_xor, BitVec.getLsbD_and, BitVec.getLsbD_not, hi, decide_true, Bool.true_and]
  generalize p.getLsbD i = p', q.getLsbD i = q', r.getLsbD i = r', s.getLsbD i = s', t.getLsbD i = t'
  revert p' q' r' s' t'
  decide

/-- Every input lane of chi, from the five output lanes of its row. -/
theorem laneAt_of_chiStep (a : Lanes) (x y : Nat) :
    laneAt a x y = chiLane (laneAt (chiStep a) x y) (laneAt (chiStep a) (x + 1) y)
      (chiLane (laneAt (chiStep a) (x + 2) y) (laneAt (chiStep a) (x + 3) y) (laneAt (chiStep a) (x + 4) y)) := by
  have hfive : laneAt a (x + 5) y = laneAt a x y := laneAt_congr a (by omega) rfl
  have hsix : laneAt a (x + 6) y = laneAt a (x + 1) y := laneAt_congr a (by omega) rfl
  simp only [laneAt_chiStep, Nat.add_assoc, Nat.reduceAdd, hfive, hsix, chiLane_undo]

theorem chiStep_injective : Function.Injective chiStep := by
  intro a b h
  apply lanes_ext_laneAt
  intro x y
  rw [laneAt_of_chiStep a, laneAt_of_chiStep b, h]

theorem iotaStep_injective (ir : Nat) : Function.Injective (iotaStep · ir) := by
  intro a b h
  apply lanes_ext
  intro k _
  have hlane := congrArg (lane · k) h
  simp only [lane_iotaStep] at hlane
  by_cases hk : k = 0
  · subst hk
    exact (BitVec.xor_left_inj _).1 hlane
  · simpa only [if_neg hk] using hlane

/-! ### Permute is a bijection (R92) -/

theorem keccakRound_injective (ir : Nat) : Function.Injective (keccakRound · ir) :=
  (iotaStep_injective ir).comp
    (chiStep_injective.comp (piStep_injective.comp (rhoStep_injective.comp thetaStep_injective)))

theorem firstRounds_injective (n : Nat) : Function.Injective (firstRounds · n) := by
  induction n with
  | zero => exact Function.injective_id
  | succ n ih => exact (keccakRound_injective n).comp ih

/-- There are finitely many lane arrays. -/
theorem finite_lanes : Finite Lanes :=
  Finite.of_injective (fun (a : Lanes) (k : Fin 25) => lane a k) fun _ _ h =>
    lanes_ext fun k hk => congrFun h ⟨k, hk⟩

/-- Settles O51: Permute is injective on a finite type. -/
theorem permuteIsBijective : Obligations.PermuteIsBijective :=
  haveI := finite_lanes
  Finite.injective_iff_bijective.1 (firstRounds_injective roundCount)

end Sys2Proof.Machine
end

section
/-! PROOFS. The family of 41_sponge.md: the transitions of the state machine, the error responses of ABSORB, an accepted
ABSORB by its working values, and SQUEEZE by the blocks it puts out. -/

namespace Sys2Proof.Machine

/-! ### Where each instruction leaves the state machine (R129) -/

/-- Settles O19, over everything an instruction can answer: INIT configures, and the other two are admitted, so they find
the sponge configured. -/
theorem phaseTransitions : Obligations.PhaseTransitions := by
  intro i s t h
  obtain ⟨r, rfl, rfl⟩ | ⟨m, rfl, ⟨hconf, -⟩, hanswer⟩ | ⟨n, rfl, ⟨hconf, -⟩, rfl⟩ := exec_next_cases h
  · exact ⟨rfl, rfl⟩
  · obtain ⟨-, rfl⟩ | ⟨-, -, rfl⟩ | ⟨-, -, rfl⟩ | ⟨-, -, rfl⟩ := hanswer <;> exact ⟨hconf, rfl⟩
  · exact ⟨(squeeze_configured s n.toNat).trans hconf, squeeze_phase s n.toNat⟩

/-! ### The error responses of ABSORB (R113, R114) -/

/-- Settles O29: the length check fails and the phase check passes. -/
theorem absorbBadLengthGetsInvalidLength : Obligations.AbsorbBadLengthGetsInvalidLength := by
  intro m s hadm hphase hlen
  have hbad : badLength m = true := decide_eq_true hlen
  refine ⟨rfl, ?_⟩
  rw [exec_absorb_of_admission_none ((admission_eq_none _).2 hadm), State.answerAbsorb, hbad, badPhase, hphase]
  rfl

/-- Settles O30: the length check passes and the phase check fails. -/
theorem absorbWhileSqueezingGetsInvalidState : Obligations.AbsorbWhileSqueezingGetsInvalidState := by
  intro m s hadm hphase hlen
  have hgood : badLength m = false := decide_eq_false (not_not_intro hlen)
  refine ⟨rfl, ?_⟩
  rw [exec_absorb_of_admission_none ((admission_eq_none _).2 hadm), State.answerAbsorb, hgood, badPhase, hphase]
  rfl

/-! ### The costs (R141, R142) -/

theorem costAbsorb_eq (len p : Nat) : costAbsorb len p = 2 * ((len + 7) / 8) + 26 * p + 4 := by
  simp only [costAbsorb, absorbWordCost, ceilWords, permCost, issueCost]
  omega

theorem costSqueeze_eq (len p : Nat) : costSqueeze len p = (len + 7) / 8 + 26 * p + 4 := by
  simp only [costSqueeze, squeezeWordCost, ceilWords, permCost, issueCost]
  omega

/-- Two ABSORBs cost one `ISSUE_COST` more than one of both messages, the first a whole number of words (R145). -/
theorem costAbsorb_add {len len' : Nat} (h : len % 8 = 0) (p p' : Nat) :
    costAbsorb len p + costAbsorb len' p' = costAbsorb (len + len') (p + p') + 4 := by
  simp only [costAbsorb_eq]
  omega

/-- Two SQUEEZEs cost one `ISSUE_COST` more than one of all the output, the first's a whole number of words (R145). -/
theorem costSqueeze_add {len len' : Nat} (h : len % 8 = 0) (p p' : Nat) :
    costSqueeze len p + costSqueeze len' p' = costSqueeze (len + len') (p + p') + 4 := by
  simp only [costSqueeze_eq]
  omega

/-! ### An accepted ABSORB by its working values (R115 to R120) -/

section absorbWork
variable {b : AbsorbBoundary} {sp : Sponge} {m : List Byte}

/-- R120's closed form for the permutation count and for `pendingBytes`. -/
theorem absorbWork_closed (hadm : sp.Admits) (hinv : sp.Inv b) :
    (sp.absorbWork b m).perms = closedPerms b sp.rate sp.pendingBytes m.length
      ∧ (sp.absorbWork b m).pending = closedPending b sp.rate sp.pendingBytes m.length := by
  obtain ⟨-, hle, hlt, -⟩ := (inv_iff_of_admits hadm).1 hinv
  obtain ⟨hperms, hpending⟩ := absorbAll_closed hadm.rate_spec.1 ⟨sp.lanes, sp.pendingBytes, m, 0⟩ hle hlt
  exact ⟨hperms.trans (Nat.zero_add _), hpending⟩

/-- When no block is completed, the message is XORed in and stays pending (R118). -/
theorem absorbWork_of_not_more (hadm : sp.Admits) (hmore : more b sp.rate sp.pendingBytes m.length = false) :
    sp.absorbWork b m = ⟨xorBytes sp.lanes sp.pendingBytes m, sp.pendingBytes + m.length, [], 0⟩ := by
  rw [Sponge.absorbWork, absorbAll_eq hadm.rate_spec.1, if_neg (by simp [hmore])]
  rfl

/-- The sponge after the first pass of the block loop, for a message that goes past the block (R117). -/
def Sponge.afterFirstPass (sp : Sponge) (m : List Byte) : Sponge :=
  { sp with
    lanes := permute (xorBytes sp.lanes sp.pendingBytes (m.take (sp.rate - sp.pendingBytes))), pendingBytes := 0 }

/-- When a block is completed, the rest is absorbed from the sponge after the first pass, and that pass counts (R117). -/
theorem absorbWork_of_more (hadm : sp.Admits) (hmore : more b sp.rate sp.pendingBytes m.length = true) :
    sp.absorbWork b m =
      let w := (sp.afterFirstPass m).absorbWork b (m.drop (sp.rate - sp.pendingBytes))
      { w with perms := w.perms + 1 } := by
  rw [Sponge.absorbWork, absorbAll_eq hadm.rate_spec.1, if_pos hmore]
  exact absorbAll_perms_add hadm.rate_spec.1 1
    ⟨(sp.afterFirstPass m).lanes, 0, m.drop (sp.rate - sp.pendingBytes), 0⟩

end absorbWork

/-- Absorbing two messages in one ABSORB is absorbing the second after the first, the counts added (R122). -/
theorem absorbWork_append {s : State} (hadm : s.sponge.Admits) (first second : List Byte) :
    s.sponge.absorbWork s.params.absorbBoundary (first ++ second) =
      let w₁ := s.sponge.absorbWork s.params.absorbBoundary first
      let w₂ := (s.absorb first).sponge.absorbWork s.params.absorbBoundary second
      { w₂ with perms := w₁.perms + w₂.perms } := by
  have hrate := hadm.rate_spec.1
  have hcut := absorbAll_append (b := s.params.absorbBoundary) hrate second
    ⟨s.sponge.lanes, s.sponge.pendingBytes, first, 0⟩
  have hcarry := absorbAll_perms_add (b := s.params.absorbBoundary) hrate
    (s.sponge.absorbWork s.params.absorbBoundary first).perms
    ⟨(s.absorb first).sponge.lanes, (s.absorb first).sponge.pendingBytes, second, 0⟩
  rw [Nat.zero_add] at hcarry
  refine (hcut.trans hcarry).trans ?_
  rw [Nat.add_comm]
  rfl

/-- Settles O26: the working values end as R120's closed form says. -/
theorem absorbCompletes : Obligations.AbsorbCompletes := by
  intro m s hinv hacc
  obtain ⟨hperms, hpending⟩ := absorbWork_closed (m := m) hacc.1 hinv
  refine ⟨(s.sponge.absorbWork s.params.absorbBoundary m).lanes, _, hperms, ?_⟩
  rw [exec_absorb_of_accepts hacc, State.absorb, costAbsorb_eq, hpending]
  rfl

/-! ### The lanes an ABSORB leaves (R117 to R119) -/

/-- Bit `n` of a lane is bit `n mod 8` of the lane's byte `n div 8` in the state image (R41). -/
theorem getLsbD_lane (a : Lanes) (k : Nat) {n : Nat} (hn : n < 64) :
    (lane a k).getLsbD n = (stateByte a (8 * k + n / 8)).getLsbD (n % 8) := by
  rw [stateByte_eq_laneByte a k (by omega), getLsbD_laneByte, decide_eq_true (by omega), Bool.true_and,
    Nat.div_add_mod]

/-- Whole words XORed in from a lane boundary on, lane by lane: each lane takes its word, read little-endian, and the
lanes outside the run take none (R44, R118, R119). -/
theorem lane_xorBytes_words {a : Lanes} {start : Nat} {bytes : List Byte} (hstart : start % 8 = 0)
    (hlen : bytes.length % 8 = 0) (hfit : start + bytes.length ≤ 200) (k : Nat) :
    lane (xorBytes a start bytes) k =
      if start / 8 ≤ k ∧ k < (start + bytes.length) / 8 then
        lane a k ^^^ littleEndian ((bytes.drop (8 * (k - start / 8))).take 8)
      else lane a k := by
  split
  next hin =>
    apply BitVec.eq_of_getLsbD_eq
    intro n hn
    have hword : ((bytes.drop (8 * (k - start / 8))).take 8).getD (n / 8) 0#8 =
        bytes.getD (8 * k + n / 8 - start) 0#8 := by
      rw [List.getD_eq_getElem?_getD, List.getElem?_take_of_lt (by omega), List.getElem?_drop,
        List.getD_eq_getElem?_getD, show 8 * (k - start / 8) + n / 8 = 8 * k + n / 8 - start by omega]
    rw [getLsbD_lane _ _ hn, xorPlacesEachByteInOrder a start bytes hfit _ (by omega), if_pos (by omega),
      BitVec.getLsbD_xor, BitVec.getLsbD_xor, getLsbD_lane _ _ hn, getLsbD_littleEndian _ _ hn, hword]
  next hout =>
    exact lane_xorBytes_of_outside bytes a start k (by omega)

/-- Settles O27: the loop makes no pass, and the message's words all lie in the rate block. -/
theorem absorbWithinBlockXorsWordsIntoLanes : Obligations.AbsorbWithinBlockXorsWordsIntoLanes := by
  intro m s t hinv hacc hmore hexec k _
  cases (exec_absorb_of_accepts hacc).symm.trans hexec
  obtain ⟨hadm, -, hlen⟩ := hacc
  obtain ⟨hstart, -⟩ := (inv_iff_of_admits hadm).1 hinv
  obtain ⟨-, -, hmax⟩ := (validRate_iff _).1 hadm.2
  have hfit : s.sponge.pendingBytes + m.length ≤ 200 := by
    cases hb : s.params.absorbBoundary <;> simp [hb, more] at hmore <;> omega
  rw [absorb_lanes, absorbWork_of_not_more hadm hmore]
  exact lane_xorBytes_words hstart hlen hfit k

/-- Settles O28: the loop's first pass leaves whole words to absorb, and they are accepted. -/
theorem absorbPastBlockPermutesAndGoesOn : Obligations.AbsorbPastBlockPermutesAndGoesOn := by
  intro m s t hinv hacc hmore hexec
  cases (exec_absorb_of_accepts hacc).symm.trans hexec
  obtain ⟨hadm, hphase, hlen⟩ := hacc
  obtain ⟨hstart, -⟩ := (inv_iff_of_admits hadm).1 hinv
  have hrate := hadm.rate_spec.2
  have hrest : (m.drop (s.sponge.rate - s.sponge.pendingBytes)).length % 8 = 0 := by
    have hle := le_rest_of_more (w := ⟨s.sponge.lanes, s.sponge.pendingBytes, m, 0⟩) hmore
    rw [List.length_drop]
    dsimp only at hle
    omega
  have hacc' : (s.withSponge (s.sponge.afterFirstPass m)).AcceptsAbsorb
      (m.drop (s.sponge.rate - s.sponge.pendingBytes)) := ⟨hadm, hphase, hrest⟩
  refine ⟨_, exec_absorb_of_accepts hacc', ?_⟩
  simp only [State.absorb, complete_sponge, absorbWork_of_more hadm hmore]
  rfl

/-- Settles O32: the one ABSORB's working values are the second call's, the counts added. -/
theorem absorbIsIncremental : Obligations.AbsorbIsIncremental := by
  intro first second s _ hfirst hlen'
  have ⟨hadm, hphase, hlen⟩ := hfirst
  have hsecond : (s.absorb first).AcceptsAbsorb second := ⟨hadm, hphase, hlen'⟩
  have hboth : s.AcceptsAbsorb (first ++ second) :=
    ⟨hadm, hphase, by rw [List.length_append, Nat.add_mod, hlen, hlen']⟩
  have happend := absorbWork_append hadm first second
  refine ⟨_, _, _, _, _, _, _, _, exec_absorb_of_accepts hfirst, exec_absorb_of_accepts hsecond,
    exec_absorb_of_accepts hboth, ?_, absorb_responses .., absorb_responses .., ?_, costAbsorb_add hlen ..⟩
  · simp only [State.absorb, complete_sponge, happend]
    rfl
  · rw [absorb_responses, happend, List.length_append]
    rfl

/-! ### SQUEEZE (R123 to R128) -/

/-- Finalization by the fields it writes (R123). -/
theorem finalize_eq (sp : Sponge) :
    sp.finalize = { sp with
      lanes := sp.finalize.lanes,
      pendingBytes := if sp.phase = .absorbing then 0 else sp.pendingBytes,
      phase := .squeezing } := by
  obtain ⟨lanes, rateBytes, phase, pendingBytes, configured⟩ := sp
  cases phase <;> rfl

/-- A later SQUEEZE finds nothing to finalize (R123). -/
theorem finalize_of_squeezing {sp : Sponge} (h : sp.phase = .squeezing) : sp.finalize = sp := by
  simp only [Sponge.finalize, h]

/-- The sponge a SQUEEZE leaves: the finalized one, permuted once a block (R123, R124). -/
theorem squeeze_sponge (s : State) (n : Nat) :
    (s.squeeze n).sponge = { s.sponge.finalize with lanes := permute^[n] s.sponge.finalize.lanes } := by
  simp only [State.squeeze, complete_sponge, squeezeBlocks_lanes]

/-- A SQUEEZE by the fields it writes (R123, R124, R126, R142). -/
theorem squeeze_eq (s : State) (n : Nat) :
    s.squeeze n = { s with
      sponge := { s.sponge with
        lanes := permute^[n] s.sponge.finalize.lanes,
        pendingBytes := if s.sponge.phase = .absorbing then 0 else s.sponge.pendingBytes,
        phase := .squeezing },
      opCounter := s.opCounter + 1#64,
      responses := s.responses ++
        [.ok n ((n * s.sponge.rate + 7) / 8 + 26 * n + 4)
          (squeezeBlocks s.sponge.rate n s.sponge.finalize.lanes).1] } := by
  have hsponge := squeeze_sponge s n
  have hresponses := squeeze_responses s n
  rw [finalize_eq] at hsponge
  rw [costSqueeze_eq] at hresponses
  rw [← hsponge, ← hresponses]
  rfl

/-- `n` blocks of a valid rate put out `n` times the rate in bytes (R126). -/
theorem squeezeBlocks_length_of_admits {sp : Sponge} (hadm : sp.Admits) (n : Nat) (a : Lanes) :
    (squeezeBlocks sp.rate n a).1.length = n * sp.rate := by
  rw [squeezeBlocks_length, Nat.mul_div_cancel' (Nat.dvd_of_mod_eq_zero hadm.rate_spec.2)]

/-- Settles O35, with the finalized lanes to start from. -/
theorem squeezeCompletes : Obligations.SqueezeCompletes := by
  intro n s hadm
  refine ⟨s.sponge.finalize.lanes, (squeezeBlocks s.sponge.rate n.toNat s.sponge.finalize.lanes).1,
    lane_finalize s.sponge, squeezeBlocks_length_of_admits hadm n.toNat _, ?_⟩
  rw [exec_squeeze_of_admits hadm, squeeze_eq]
  rfl

/-- Settles O34: a SQUEEZE of no blocks leaves the lanes it starts from and puts nothing out. -/
theorem firstSqueezeFinalizes : Obligations.FirstSqueezeFinalizes := by
  intro s hadm hphase
  obtain ⟨start, out, hstart, hout, hexec⟩ := squeezeCompletes 0#56 s hadm
  obtain rfl : out = [] := List.eq_nil_of_length_eq_zero (hout.trans (Nat.zero_mul _))
  simp only [hphase, true_and, if_true] at hstart hexec
  refine ⟨start, hstart, hexec.trans ?_⟩
  rw [BitVec.toNat_zero, Nat.zero_mul]
  rfl

/-- Settles O36: with nothing to finalize and no block to put out, the sponge is the one found. -/
theorem laterEmptySqueezeChangesNothing : Obligations.LaterEmptySqueezeChangesNothing := by
  intro s hadm hphase
  have hsponge : (s.squeeze 0).sponge = s.sponge := by rw [squeeze_sponge, finalize_of_squeezing hphase]; rfl
  have hresponses : (s.squeeze 0).responses = s.responses ++ [.ok 0 4 []] := by
    rw [squeeze_responses, Nat.zero_mul]
    rfl
  exact (exec_squeeze_of_admits hadm).trans <| congrArg₂ (fun sp responses =>
    (.next { s with sponge := sp, opCounter := s.opCounter + 1#64, responses := responses } : Result))
    hsponge hresponses

/-- One SQUEEZE of `m + n` blocks leaves the sponge that one of `m` and then one of `n` leave: the second starts where the
first stopped, with nothing left to finalize (R127). -/
theorem squeeze_add_sponge (s : State) (m n : Nat) : (s.squeeze (m + n)).sponge = ((s.squeeze m).squeeze n).sponge := by
  rw [squeeze_sponge (s.squeeze m), finalize_of_squeezing (squeeze_phase s m), squeeze_sponge, squeeze_sponge,
    Nat.add_comm, Function.iterate_add_apply]

/-- The response to a SQUEEZE that follows a SQUEEZE of `m` blocks: its output goes on from the lanes those left. -/
theorem squeeze_squeeze_responses (s : State) (m n : Nat) :
    ((s.squeeze m).squeeze n).responses = (s.squeeze m).responses ++
      [.ok n (costSqueeze (n * s.sponge.rate) n)
        (squeezeBlocks s.sponge.rate n (squeezeBlocks s.sponge.rate m s.sponge.finalize.lanes).2).1] := by
  have hrate : (s.squeeze m).sponge.rate = s.sponge.rate := by simp [Sponge.rate]
  rw [squeeze_responses (s.squeeze m), finalize_of_squeezing (squeeze_phase s m), hrate, squeeze_lanes,
    squeezeBlocks_lanes]

/-- Settles O38: the blocks of the one call are those of the two, in order. -/
theorem squeezeStreams : Obligations.SqueezeStreams := by
  intro a b c s hadm hc
  have hadm' : (s.squeeze a.toNat).sponge.Admits := by simpa [Sponge.Admits] using hadm
  have hwords : a.toNat * s.sponge.rate % 8 = 0 := by rw [Nat.mul_mod, hadm.rate_spec.2, Nat.mul_zero]
  have hone : exec (.squeeze c) s = .next (s.squeeze (a.toNat + b.toNat)) := hc ▸ exec_squeeze_of_admits hadm
  have hout := squeeze_responses s (a.toNat + b.toNat)
  rw [squeezeBlocks_add, Nat.add_mul] at hout
  exact ⟨_, _, _, _, _, _, _, _, exec_squeeze_of_admits hadm, exec_squeeze_of_admits hadm', hone,
    squeeze_add_sponge s a.toNat b.toNat, squeeze_responses .., squeeze_squeeze_responses .., hout,
    costSqueeze_add hwords ..⟩

/-! ### The output byte by byte (R125) -/

/-- An entry of a run of pieces of one width, by its piece and its place there. -/
theorem getElem?_flatMap_range {α : Type} {f : Nat → List α} {width : Nat} (hf : ∀ k, (f k).length = width)
    {n k i : Nat} (hk : k < n) (hi : i < width) :
    ((List.range n).flatMap f)[k * width + i]? = (f k)[i]? := by
  have hlength (n : Nat) : ((List.range n).flatMap f).length = n * width := by
    simp [List.length_flatMap, hf]
  induction n with
  | zero => exact absurd hk (Nat.not_lt_zero k)
  | succ n ih =>
    rw [List.range_succ, List.flatMap_append, List.flatMap_singleton]
    obtain hlt | rfl := Nat.lt_succ_iff_lt_or_eq.1 hk
    · have hbefore : k * width + i < n * width :=
        calc k * width + i < (k + 1) * width := by rw [Nat.succ_mul]; omega
          _ ≤ n * width := Nat.mul_le_mul_right width hlt
      rw [List.getElem?_append_left (by rwa [hlength]), ih hlt]
    · rw [List.getElem?_append_right (by rw [hlength]; omega), hlength, Nat.add_sub_cancel_left]

/-- Byte `8 * k + j` of a rate block is byte `j` of lane `k` (R42, R125). -/
theorem getElem?_rateBlock (a : Lanes) {rate k j : Nat} (hk : k < rate / 8) (hj : j < 8) :
    (rateBlock rate a)[k * 8 + j]? = some (laneByte (lane a k) j) := by
  rw [rateBlock, getElem?_flatMap_range (fun k => laneBytes_length (lane a k)) hk hj]
  simp [laneBytes, hj]

/-- Byte `8 * k + j` of block `b` is byte `j` of lane `k` of the lanes permuted `b + 1` times (R125). -/
theorem getElem?_squeezeBlocks (a : Lanes) {rate n b k j : Nat} (hrate : rate % 8 = 0) (hb : b < n)
    (hk : k < rate / 8) (hj : j < 8) :
    (squeezeBlocks rate n a).1[b * rate + (k * 8 + j)]? = some (laneByte (lane (permute^[b + 1] a) k) j) := by
  have hblock (b : Nat) : (rateBlock rate (permute^[b + 1] a)).length = rate := by
    rw [rateBlock_length, Nat.mul_div_cancel' (Nat.dvd_of_mod_eq_zero hrate)]
  rw [squeezeBlocks_out, getElem?_flatMap_range hblock hb (by omega), getElem?_rateBlock _ hk hj]

/-- Settles O37: the starting lanes given are the finalized ones, and the output is the blocks squeezed from them. -/
theorem squeezeOutputBytes : Obligations.SqueezeOutputBytes := by
  intro n s t start perms cost out hstart hexec hresp
  obtain ⟨hadm, rfl⟩ := exec_squeeze_next hexec
  obtain rfl : start = s.sponge.finalize.lanes :=
    lanes_ext fun k hk => (hstart k hk).trans (lane_finalize s.sponge k hk).symm
  have hout : (squeezeBlocks s.sponge.rate n.toNat s.sponge.finalize.lanes).1 = out := by
    rw [squeeze_responses] at hresp
    simp only [List.append_cancel_left_eq, List.cons.injEq, Response.ok.injEq, and_true] at hresp
    exact hresp.2.2
  rw [← hout]
  refine ⟨squeezeBlocks_length_of_admits hadm _ _, fun b k j hb hk hj => ?_⟩
  rw [Nat.add_assoc, Nat.mul_comm 8 k, ← laneByte_eq_ofNat]
  exact getElem?_squeezeBlocks _ hadm.rate_spec.2 hb hk hj

end Sys2Proof.Machine
end

section
/-! PROOFS. The family of 42_timing.md: what an OK response reports, and how large a cost can be. -/

namespace Sys2Proof.Machine

/-! ### What an OK response reports (R120, R126, R141, R142) -/

section
variable {s t : State} {perms cost : Nat} {out : List Byte}

/-- An ABSORB that answers OK was accepted, and reports its working values' count and R141's cost for it. -/
theorem exec_absorb_ok {m : List Byte} (h : exec (.absorb m) s = .next t)
    (hresp : t.responses = s.responses ++ [.ok perms cost out]) :
    s.AcceptsAbsorb m ∧ perms = (s.sponge.absorbWork s.params.absorbBoundary m).perms
      ∧ cost = costAbsorb m.length perms := by
  obtain ⟨hacc, rfl⟩ | ⟨kind, herror, -⟩ := exec_absorb_accepted_or_error h
  · rw [absorb_responses] at hresp
    cases List.append_cancel_left hresp
    exact ⟨hacc, rfl, rfl⟩
  · cases List.append_cancel_left (herror.symm.trans hresp)

/-- A SQUEEZE that answers OK was admitted, and reports its operand and R142's cost for it. -/
theorem exec_squeeze_ok {n : Operand} (h : exec (.squeeze n) s = .next t)
    (hresp : t.responses = s.responses ++ [.ok perms cost out]) :
    s.sponge.Admits ∧ perms = n.toNat ∧ cost = costSqueeze (perms * s.sponge.rate) perms := by
  obtain ⟨hadm, rfl⟩ := exec_squeeze_next h
  rw [squeeze_responses] at hresp
  cases List.append_cancel_left hresp
  exact ⟨hadm, rfl, rfl⟩

end

/-! ### The bounds (R146) -/

/-- A valid rate is 8 to 200 bytes (R27). -/
theorem Sponge.Admits.rate_range {sp : Sponge} (h : sp.Admits) : 8 ≤ sp.rate ∧ sp.rate ≤ 200 :=
  ((validRate_iff _).1 h.2).2

/-- Under both boundary tests, at most as many permutations as rate blocks fit the pending and the new bytes. -/
theorem closedPerms_le (b : AbsorbBoundary) {rate : Nat} (hrate : 0 < rate) (pending length : Nat) :
    closedPerms b rate pending length ≤ (pending + length) / rate := by
  cases b with
  | nonstrict => exact Nat.le_refl _
  | strict =>
    rw [closedPerms, Nat.sub_le_iff_le_add, ← Nat.add_div_right _ hrate]
    exact Nat.div_le_div_right (Nat.sub_le _ 1)

/-- The permutations of an accepted ABSORB, by the rate (R120). -/
theorem absorbWork_perms_le {b : AbsorbBoundary} {sp : Sponge} (hadm : sp.Admits) (hinv : sp.Inv b) (m : List Byte) :
    (sp.absorbWork b m).perms ≤ (sp.pendingBytes + m.length) / sp.rate := by
  rw [(absorbWork_closed hadm hinv).1]
  exact closedPerms_le b hadm.rate_spec.1 _ _

/-- The permutations of an accepted ABSORB, whatever the rate: at most 200 bytes are pending, a block is at least 8. -/
theorem absorbWork_perms_le_of_any_rate {b : AbsorbBoundary} {sp : Sponge} (hadm : sp.Admits) (hinv : sp.Inv b)
    (m : List Byte) : (sp.absorbWork b m).perms ≤ (200 + m.length) / 8 := by
  obtain ⟨hmin, hmax⟩ := hadm.rate_range
  obtain ⟨-, hpending, -⟩ := (inv_iff_of_admits hadm).1 hinv
  calc (sp.absorbWork b m).perms
      ≤ (sp.pendingBytes + m.length) / sp.rate := absorbWork_perms_le hadm hinv m
    _ ≤ (sp.pendingBytes + m.length) / 8 := Nat.div_le_div_left hmin (by decide)
    _ ≤ (200 + m.length) / 8 :=
      Nat.div_le_div_right (Nat.add_le_add_right (hpending.trans hmax) m.length)

theorem costAbsorb_lt {len p : Nat} (hlen : len < 2 ^ 56) (hp : p ≤ (200 + len) / 8) : costAbsorb len p < 2 ^ 59 := by
  rw [costAbsorb_eq]
  omega

/-- A block of at most 200 bytes costs at most 25 for its words and 26 for its permutation. -/
theorem costSqueeze_le (n : Nat) {rate : Nat} (hrate : rate ≤ 200) : costSqueeze (n * rate) n ≤ 51 * n + 4 := by
  have hlen : n * rate ≤ n * 200 := Nat.mul_le_mul_left n hrate
  rw [costSqueeze_eq]
  omega

/-- Settles O39: the operand field keeps an ABSORB's bytes and a SQUEEZE's blocks below `2^56` (R62). -/
theorem reportedCostsFitSixtyFourBits : Obligations.ReportedCostsFitSixtyFourBits := by
  intro i s t perms cost out hinv hwf hi hexec hresp
  cases i with
  | init r => cases hi
  | absorb m =>
    obtain ⟨⟨hadm, -, -⟩, rfl, rfl⟩ := exec_absorb_ok hexec hresp
    exact costAbsorb_lt ((wellFormed_absorb m).1 hwf) (absorbWork_perms_le_of_any_rate hadm hinv m)
  | squeeze n =>
    obtain ⟨hadm, rfl, rfl⟩ := exec_squeeze_ok hexec hresp
    have hn : n.toNat < 2 ^ 56 := n.isLt
    calc costSqueeze (n.toNat * s.sponge.rate) n.toNat
        ≤ 51 * n.toNat + 4 := costSqueeze_le n.toNat hadm.rate_range.2
      _ < 2 ^ 62 := by omega

end Sys2Proof.Machine
end

section
/-! PROOFS. The family of 60_exceptions.md: refusals and their sticky mark, error responses, and the idle core. -/

namespace Sys2Proof.Machine

/-! ### The refusal mark (R165) -/

/-- A marked state is refused for its mark's reason, before its inputs are looked at. -/
theorem step_of_marked {s : State} {why : Refusal} (hm : s.refusedMark = some why) : step s = .refused why := by
  simp only [step, hm]

/-- A run takes a refused step by marking the state. -/
theorem advance_of_refused {s : State} {why : Refusal} (h : step s = .refused why) :
    advance s = s.markRefused why := by
  simp only [advance, h]

/-- Marking a state again for the same reason changes nothing. -/
theorem markRefused_of_marked {s : State} {why : Refusal} (hm : s.refusedMark = some why) :
    s.markRefused why = s := by
  rw [State.markRefused, ← hm]

/-- A run leaves a marked state as it is, after any number of steps. -/
theorem advance_iterate_of_marked {s : State} {why : Refusal} (hm : s.refusedMark = some why) (n : Nat) :
    advance^[n] s = s :=
  have hfixed : advance s = s := (advance_of_refused (step_of_marked hm)).trans (markRefused_of_marked hm)
  Function.iterate_fixed hfixed n

/-- Settles O10: a refused step sets the mark, and a marked state, whatever inputs it holds, is a fixed point of
`advance`. -/
theorem refusalMarkIsSticky : Obligations.RefusalMarkIsSticky := by
  intro s why
  refine ⟨fun h => by rw [advance_of_refused h, markRefused_refusedMark], fun hm inputs => ?_⟩
  have hm' : (s.withInputs inputs).refusedMark = some why := hm
  refine ⟨step_of_marked hm', fun n => ?_⟩
  have hkept : advance^[n] { s with inputs := inputs } = s.withInputs inputs := advance_iterate_of_marked hm' n
  rw [hkept]
  exact ⟨hm, rfl⟩

/-! ### Refused exactly when not admitted (R166, R167, R169) -/

/-- INIT in every state, and an ABSORB or SQUEEZE on an admitted sponge, answers a next state. -/
theorem exec_next_of_admits {i : Instr} {s : State} (h : i.usesSponge = true → s.sponge.Admits) :
    ∃ t, exec i s = .next t := by
  cases i with
  | init r => exact ⟨_, exec_init r s⟩
  | absorb m => exact ⟨_, exec_absorb_of_admission_none ((admission_eq_none _).2 (h rfl))⟩
  | squeeze n => exact ⟨_, exec_squeeze_of_admits (h rfl)⟩

/-- Settles O18: the two refusals are admission's, and an instruction that admission lets through answers. -/
theorem refusedExactlyWhenNotAdmitted : Obligations.RefusedExactlyWhenNotAdmitted := by
  intro i s
  refine ⟨exec_of_unconfigured, fun hi hconf hrate => ?_, fun hcase => ?_⟩
  · have hinvalid : validRate s.sponge.rateBytes = false := by
      rwa [← validRate_iff, Bool.not_eq_true] at hrate
    exact exec_of_admission_some hi (admission_invalidRate hconf hinvalid)
  · have hadm : i.usesSponge = true → s.sponge.Admits := by
      intro hi
      obtain hinit | ⟨hconf, hrate⟩ := hcase
      · exact absurd (hinit.symm.trans hi) (by decide)
      · exact ⟨hconf, (validRate_iff _).2 hrate⟩
    obtain ⟨t, hnext⟩ := exec_next_of_admits hadm
    obtain ⟨r, hresp, -⟩ := exec_responses_and_opCounter hnext
    exact ⟨t, r, hnext, hresp⟩

/-! ### Error responses (R160 to R164) -/

/-- Settles O22: INIT, SQUEEZE and an accepted ABSORB add an OK response, so the instruction is an ABSORB that raised. -/
theorem errorResponsesChangeNoState : Obligations.ErrorResponsesChangeNoState := by
  intro i s t kind h hresp
  cases i with
  | init r =>
    cases h
    cases List.append_cancel_left hresp
  | absorb m =>
    obtain ⟨-, rfl⟩ | ⟨_, -, hsponge, hcount, -⟩ := exec_absorb_accepted_or_error h
    · rw [absorb_responses] at hresp
      cases List.append_cancel_left hresp
    · exact ⟨hsponge, hcount, m, rfl⟩
  | squeeze n =>
    obtain ⟨-, rfl⟩ := exec_squeeze_next h
    rw [squeeze_responses] at hresp
    cases List.append_cancel_left hresp

/-- There is no third error code (R160). -/
theorem errorKind_cases (kind : ErrorKind) : kind = .invalidLength ∨ kind = .invalidState := by
  cases kind with
  | invalidLength => exact .inl rfl
  | invalidState => exact .inr rfl

/-- Settles O31: both checks fail, and the code is the draw, whichever of the two it is. -/
theorem absorbBothErrorsGetsEitherCode : Obligations.AbsorbBothErrorsGetsEitherCode := by
  intro m s hadm hphase hlen
  have hbad : badLength m = true := decide_eq_true hlen
  refine ⟨Config.errorDraw s.draws, errorKind_cases _, ?_⟩
  rw [exec_absorb_of_admission_none ((admission_eq_none _).2 hadm), State.answerAbsorb, hbad, badPhase, hphase]
  rfl

/-! ### A step that runs no instruction (R168, R169, R177) -/

/-- Settles O6: the decoder is asked before anything else of the state is read. -/
theorem stepRefusesUndecodableRequest : Obligations.StepRefusesUndecodableRequest := by
  intro s q rest why hm hi hd
  simp only [step, hm, hi, hd]

/-- Settles O8, by the branch of `step` with nothing waiting. -/
theorem idleCoreKeepsItsState : Obligations.IdleCoreKeepsItsState := by
  intro s hm hi
  simp only [step, hm, hi]

end Sys2Proof.Machine
end

section
/-! PROOFS. The family of 70_reset_and_hazards.md: sequences of requests after an INIT with a valid rate, the bound on the
permutations of one request, and the whole engine against the padded sponge construction. -/

namespace Sys2Proof.Machine

/-! ### Sequences of requests (R51, R183) -/

/-- An instruction that completes hands its next state on to the rest of the sequence. -/
theorem serve_cons_of_next {i : Instr} {s t : State} (h : exec i s = .next t) (is : List Instr) :
    serve (i :: is) s = serve is t := by
  simp only [serve, h]

/-- A sequence that completes hands its last state on to the one after it. -/
theorem serve_append_of_next {is : List Instr} {s t : State} (h : serve is s = .next t) (later : List Instr) :
    serve (is ++ later) s = serve later t := by
  induction is generalizing s with
  | nil => cases h; rfl
  | cons i is ih =>
    simp only [List.cons_append, serve] at h ⊢
    cases hexec : exec i s with
    | next u => rw [hexec] at h; exact ih h
    | fault f => rw [hexec] at h; cases h
    | refused why => rw [hexec] at h; cases h

/-- The instructions run from `s` to `t`, and each adds one response, of the kind `P`. -/
def AnswersEach (P : Response → Prop) (is : List Instr) (s t : State) : Prop :=
  serve is s = .next t ∧
    ∃ added, t.responses = s.responses ++ added ∧ added.length = is.length ∧ ∀ r ∈ added, P r

section
variable {P : Response → Prop} {is later : List Instr} {s t u : State}

theorem answersEach_nil (s : State) : AnswersEach P [] s s :=
  ⟨rfl, [], (List.append_nil _).symm, rfl, by simp⟩

theorem AnswersEach.append (h : AnswersEach P is s t) (h' : AnswersEach P later t u) :
    AnswersEach P (is ++ later) s u := by
  obtain ⟨hserve, added, hresp, hlen, hP⟩ := h
  obtain ⟨hserve', added', hresp', hlen', hP'⟩ := h'
  refine ⟨(serve_append_of_next hserve later).trans hserve', added ++ added', ?_, ?_, ?_⟩
  · rw [hresp', hresp, List.append_assoc]
  · rw [List.length_append, List.length_append, hlen, hlen']
  · exact fun r hr => (List.mem_append.1 hr).elim (hP r) (hP' r)

theorem answersEach_singleton {i : Instr} {r : Response} (h : exec i s = .next t)
    (hresp : t.responses = s.responses ++ [r]) (hP : P r) : AnswersEach P [i] s t :=
  ⟨serve_cons_of_next h [], [r], hresp, rfl, by simpa using hP⟩

/-- Where every instruction of the sequence, from every state of `I`, completes into `I` with a response of the kind `P`,
the whole sequence does. -/
theorem answersEach_of_invariant {I : State → Prop}
    (hstep : ∀ i ∈ is, ∀ s, I s → ∃ t, I t ∧ AnswersEach P [i] s t) (hs : I s) :
    ∃ t, I t ∧ AnswersEach P is s t := by
  induction is generalizing s with
  | nil => exact ⟨s, hs, answersEach_nil s⟩
  | cons i is ih =>
    obtain ⟨hi, his⟩ := List.forall_mem_cons.1 hstep
    obtain ⟨t, ht, hfirst⟩ := hi s hs
    obtain ⟨u, hu, hrest⟩ := ih his ht
    exact ⟨u, hu, hfirst.append hrest⟩

end

/-! ### After an INIT with a valid rate (R183) -/

/-- INIT with a valid rate leaves an admitted sponge (R27, R28). -/
theorem admits_configure {r : Operand} (h8 : r.toNat % 8 = 0) (hmin : 8 ≤ r.toNat) (hmax : r.toNat ≤ 200) :
    (Sponge.configure r).Admits :=
  ⟨rfl, (validRate_iff r).2 ⟨h8, hmin, hmax⟩⟩

/-- INIT's next state by what the requests after it find (R35, R110). -/
theorem exec_init_next (rate : Operand) (s : State) :
    ∃ t, exec (.init rate) s = .next t ∧ t.sponge = Sponge.configure rate ∧ t.params = s.params
      ∧ t.responses = s.responses ++ [.ok 0 s.params.initCost []] :=
  ⟨_, exec_init rate s, rfl, rfl, rfl⟩

/-- On an admitted sponge an ABSORB or SQUEEZE answers and leaves the sponge admitted (R26, R28). -/
theorem answersEach_of_admits {i : Instr} {s : State} (hi : i.usesSponge = true) (hadm : s.sponge.Admits) :
    ∃ t, t.sponge.Admits ∧ AnswersEach (fun _ => True) [i] s t := by
  obtain ⟨t, hexec⟩ := exec_next_of_admits fun _ => hadm
  obtain ⟨r, hresp, -⟩ := exec_responses_and_opCounter hexec
  obtain ⟨hrate, -⟩ := exec_keeps_rate_and_squeezing hi hexec
  have hconf : t.sponge.configured = true := (phaseTransitions i s t hexec).1
  exact ⟨t, ⟨hconf, hrate ▸ hadm.2⟩, answersEach_singleton hexec hresp trivial⟩

/-- An accepted ABSORB answers OK and leaves the sponge admitted and Absorbing. -/
theorem answersEach_absorb {m : List Byte} {s : State} (hacc : s.AcceptsAbsorb m) :
    ∃ t, (t.sponge.Admits ∧ t.sponge.phase = .absorbing) ∧ AnswersEach (·.status = 0#2) [.absorb m] s t :=
  have ⟨hadm, hphase, _⟩ := hacc
  ⟨s.absorb m, ⟨hadm, hphase⟩, answersEach_singleton (exec_absorb_of_accepts hacc) (absorb_responses s m) rfl⟩

/-- An admitted SQUEEZE answers OK and leaves the sponge admitted. -/
theorem answersEach_squeeze (n : Operand) {s : State} (hadm : s.sponge.Admits) :
    ∃ t, t.sponge.Admits ∧ AnswersEach (·.status = 0#2) [.squeeze n] s t :=
  ⟨s.squeeze n.toNat, by simpa [Sponge.Admits] using hadm,
    answersEach_singleton (exec_squeeze_of_admits hadm) (squeeze_responses s n.toNat) rfl⟩

/-- Settles O23: INIT leaves an admitted sponge, and every ABSORB and SQUEEZE answers and keeps it admitted. -/
theorem nothingIsRefusedAfterValidInit : Obligations.NothingIsRefusedAfterValidInit := by
  intro s rate is h8 hmin hmax his
  obtain ⟨s₁, hinit, hsponge, -, hresp₁⟩ := exec_init_next rate s
  have hadm : s₁.sponge.Admits := hsponge ▸ admits_configure h8 hmin hmax
  obtain ⟨t, -, hrest⟩ := answersEach_of_invariant (I := fun s => s.sponge.Admits)
    (fun i hi _ hs => answersEach_of_admits (his i hi) hs) hadm
  obtain ⟨hserve, added, hresp, hlen, -⟩ := (answersEach_singleton hinit hresp₁ trivial).append hrest
  refine ⟨t, hserve, ?_⟩
  rw [hresp, List.length_append, hlen, List.singleton_append, List.length_cons, Nat.add_assoc]

/-- Settles O24: the sponge stays admitted throughout, and Absorbing until the last ABSORB is answered. -/
theorem bootOrderGetsOnlyOkResponses : Obligations.BootOrderGetsOnlyOkResponses := by
  intro s rate messages counts h8 hmin hmax hwords
  obtain ⟨s₁, hexec, hsponge, -, hresp₁⟩ := exec_init_next rate s
  have hinit : AnswersEach (·.status = 0#2) [.init rate] s s₁ := answersEach_singleton hexec hresp₁ rfl
  have hstart : s₁.sponge.Admits ∧ s₁.sponge.phase = .absorbing := hsponge ▸ ⟨admits_configure h8 hmin hmax, rfl⟩
  obtain ⟨s₂, ⟨hadm, -⟩, habsorbs⟩ := answersEach_of_invariant (is := messages.map .absorb)
    (I := fun s => s.sponge.Admits ∧ s.sponge.phase = .absorbing)
    (List.forall_mem_map.2 fun m hm _ ⟨hadm, hphase⟩ => answersEach_absorb ⟨hadm, hphase, hwords m hm⟩) hstart
  obtain ⟨t, -, hsqueezes⟩ := answersEach_of_invariant (is := counts.map .squeeze) (I := fun s => s.sponge.Admits)
    (List.forall_mem_map.2 fun n _ _ hadm => answersEach_squeeze n hadm) hadm
  obtain ⟨hserve, added, hresp, hlen, hok⟩ := hinit.append (habsorbs.append hsqueezes)
  refine ⟨t, added, hserve, hresp, hlen.trans ?_, hok⟩
  simp only [List.length_append, List.length_map, List.length_singleton, Nat.add_assoc]

/-! ### Bounded permutations (R192) -/

/-- Settles O40: the counts of the responses, with the bound on an ABSORB's. -/
theorem permutationCountsAreBounded : Obligations.PermutationCountsAreBounded := by
  intro i s t perms cost out hinv hexec hresp
  cases i with
  | init r =>
    cases hexec
    cases List.append_cancel_left hresp
    rfl
  | absorb m =>
    obtain ⟨⟨hadm, -, -⟩, rfl, -⟩ := exec_absorb_ok hexec hresp
    exact Nat.le_succ_of_le (absorbWork_perms_le hadm hinv m)
  | squeeze n =>
    obtain ⟨-, hperms, -⟩ := exec_squeeze_ok hexec hresp
    exact hperms

/-! ### The padding, to a word and to a block (R70; G8)

`absorb.pad` pads to a whole word, the construction to a whole block: the construction's bytes are those of `absorb.pad`
and then zeros, and both fill the same number of blocks. -/

/-- The zeros bring the length to a whole number of blocks. -/
theorem length_add_blockZeros {rate : Nat} (hrate : 0 < rate) (length : Nat) :
    (length + blockZeros rate length) % rate = 0 := by
  have hlt := Nat.mod_lt length hrate
  have hsplit := Nat.div_add_mod length rate
  have hfilled : length + (rate - length % rate) = rate * (length / rate + 1) := by
    rw [Nat.mul_succ]
    omega
  rw [blockZeros, Nat.add_mod_mod, hfilled, Nat.mul_mod_right]

theorem blockZeros_lt {rate : Nat} (hrate : 0 < rate) (length : Nat) : blockZeros rate length < rate :=
  Nat.mod_lt _ hrate

theorem domainPadded_length (rate : Nat) (message : List Byte) (domain : Byte) :
    (domainPadded rate message domain).length = message.length + 1 + blockZeros rate (message.length + 1) := by
  simp only [domainPadded, List.length_append, List.length_cons, List.length_replicate]
  omega

/-- A word is no longer than a block. -/
theorem padZeros_le_blockZeros {rate : Nat} (hrate : 0 < rate) (h8 : rate % 8 = 0) (length : Nat) :
    padZeros length ≤ blockZeros rate length := by
  have hwords : (length + blockZeros rate length) % 8 = 0 := by
    rw [← Nat.mod_mod_of_dvd _ (Nat.dvd_of_mod_eq_zero h8), length_add_blockZeros hrate]
  unfold padZeros
  omega

/-- The construction's padding is that of `absorb.pad` and then zeros. -/
theorem domainPadded_eq_padMessage_append {rate : Nat} (hrate : 0 < rate) (h8 : rate % 8 = 0) (message : List Byte)
    (domain : Byte) :
    domainPadded rate message domain = padMessage message domain ++
      List.replicate (blockZeros rate (message.length + 1) - padZeros (message.length + 1)) 0#8 := by
  rw [padMessage, List.append_assoc, List.cons_append, List.replicate_append_replicate,
    Nat.add_sub_cancel' (padZeros_le_blockZeros hrate h8 _), domainPadded]

/-- What `absorb.pad` yields ends in the last block of the construction's padding: it is longer than the blocks before
that one, and no longer than all of them. -/
theorem padMessage_length_range {rate : Nat} (hrate : 0 < rate) (h8 : rate % 8 = 0) (message : List Byte)
    (domain : Byte) :
    ((domainPadded rate message domain).length / rate - 1) * rate < (padMessage message domain).length
      ∧ (padMessage message domain).length ≤ ((domainPadded rate message domain).length / rate - 1) * rate + rate := by
  have hzeros := padZeros_le_blockZeros hrate h8 (message.length + 1)
  have hlt := blockZeros_lt hrate (message.length + 1)
  have hblocks := Nat.div_mul_cancel (Nat.dvd_of_mod_eq_zero (length_add_blockZeros hrate (message.length + 1)))
  rw [domainPadded_length, padMessage_length, Nat.sub_mul]
  omega

/-! ### The block loop under `STRICT` as the construction's (R117, R118; G8) -/

/-- XORing in a zero byte changes nothing. -/
theorem xorStateByte_zero (a : Lanes) (i : Nat) : xorStateByte a i 0#8 = a := by
  refine lanes_ext fun k hk => ?_
  rw [xorStateByte, lane_setLane]
  split
  next h =>
    obtain ⟨rfl, -⟩ := h
    simp
  next => rfl

/-- XORing in zero bytes changes nothing. -/
theorem xorBytes_replicate_zero (n : Nat) (a : Lanes) (start : Nat) :
    xorBytes a start (List.replicate n 0#8) = a := by
  induction n generalizing start with
  | zero => rfl
  | succ n ih => rw [List.replicate_succ, xorBytes, xorStateByte_zero, ih]

/-- Zeros after the bytes change nothing, where they all lie in the last block. -/
theorem xorBlocks_append_zeros {rate : Nat} (zeros blocks : Nat) {bytes : List Byte}
    (hlen : blocks * rate ≤ bytes.length) (a : Lanes) :
    xorBlocks rate blocks (bytes ++ List.replicate zeros 0#8) a = xorBlocks rate blocks bytes a := by
  induction blocks generalizing bytes a with
  | zero => rw [xorBlocks, xorBlocks, xorBytes_append, xorBytes_replicate_zero]
  | succ blocks ih =>
    rw [Nat.succ_mul] at hlen
    have hrate : rate ≤ bytes.length := by omega
    rw [xorBlocks, xorBlocks, List.take_append_of_le_length hrate, List.drop_append_of_le_length hrate,
      ih (by rw [List.length_drop]; omega)]

/-- Under `STRICT` and from a block's start, a message that ends in the block after the first `blocks` ones, at its end
at the latest, is absorbed block by block: the last block waits, full or not. -/
theorem absorbAll_strict_lanes {rate : Nat} (hrate : 0 < rate) (blocks : Nat) {w : AbsorbWork} (hpending : w.pending = 0)
    (hmin : blocks * rate < w.rest.length) (hmax : w.rest.length ≤ blocks * rate + rate) :
    (absorbAll .strict rate w).lanes = xorBlocks rate blocks w.rest w.lanes := by
  induction blocks generalizing w with
  | zero =>
    have hlast : ¬ more .strict rate w.pending w.rest.length = true := by
      rw [more_strict]
      omega
    rw [absorbAll_eq hrate, if_neg hlast, absorbTail, hpending, xorBlocks]
  | succ blocks ih =>
    rw [Nat.succ_mul] at hmin hmax
    have hpass : more .strict rate w.pending w.rest.length = true := by
      rw [more_strict]
      omega
    have hrest : (absorbPass rate w).rest = w.rest.drop rate := by rw [absorbPass_rest, hpending, Nat.sub_zero]
    have hlen : (absorbPass rate w).rest.length = w.rest.length - rate := by rw [hrest, List.length_drop]
    rw [absorbAll_eq hrate, if_pos hpass, ih rfl (by omega) (by omega), hrest, absorbPass_lanes, hpending, xorBlocks,
      Nat.sub_zero]

/-- The construction's zeros past those of `absorb.pad` change no lane. -/
theorem paddedState_eq_xorBlocks_padMessage {rate : Nat} (hrate : 0 < rate) (h8 : rate % 8 = 0) (message : List Byte)
    (domain : Byte) :
    paddedState rate message domain =
      xorStateByte
        (xorBlocks rate ((domainPadded rate message domain).length / rate - 1) (padMessage message domain) zeroLanes)
        (rate - 1) 0x80#8 := by
  have hlen := (padMessage_length_range hrate h8 message domain).1.le
  rw [paddedState]
  generalize (domainPadded rate message domain).length / rate - 1 = blocks at hlen ⊢
  rw [domainPadded_eq_padMessage_append hrate h8, xorBlocks_append_zeros _ _ hlen]

/-! ### The whole engine (R184, R185) -/

/-- Finalization flips the top bit of the rate block's last byte (R123; G8). -/
theorem finalize_lanes_of_absorbing {sp : Sponge} (hadm : sp.Admits) (hphase : sp.phase = .absorbing) :
    sp.finalize.lanes = xorStateByte sp.lanes (sp.rate - 1) 0x80#8 := by
  have hrate := hadm.rate_spec
  have hlane : (sp.rate - 1) / 8 = sp.lastRateLane := by rw [Sponge.lastRateLane]; omega
  have hbyte : (sp.rate - 1) % 8 = 7 := by omega
  have hbit : (0x80#8).setWidth 64 <<< (8 * 7) = 1#64 <<< 63 := by decide
  simp only [Sponge.finalize, hphase, xorStateByte, hlane, hbyte, hbit]

/-- Under `STRICT`, a just configured sponge that absorbs `absorb.pad`'s bytes is finalized to the construction's padded
state. -/
theorem finalize_absorb_padMessage {s : State} {rate : Operand} (hstrict : s.params.absorbBoundary = .strict)
    (hsponge : s.sponge = Sponge.configure rate) (hadm : s.sponge.Admits) (message : List Byte) (domain : Byte) :
    (s.absorb (padMessage message domain)).sponge.finalize.lanes = paddedState rate.toNat message domain := by
  have hrate : s.sponge.rate = rate.toNat := by rw [hsponge]; rfl
  have hrate' : (s.absorb (padMessage message domain)).sponge.rate = rate.toNat := hrate
  have hadm' : (s.absorb (padMessage message domain)).sponge.Admits := hadm
  have hphase : (s.absorb (padMessage message domain)).sponge.phase = .absorbing := by rw [absorb_phase, hsponge]; rfl
  obtain ⟨hpos, h8⟩ := hadm.rate_spec
  rw [hrate] at hpos h8
  obtain ⟨hmin, hmax⟩ := padMessage_length_range hpos h8 message domain
  rw [finalize_lanes_of_absorbing hadm' hphase, hrate', absorb_lanes, Sponge.absorbWork, hstrict, hrate, hsponge,
    absorbAll_strict_lanes hpos _ rfl hmin hmax, paddedState_eq_xorBlocks_padMessage hpos h8]
  rfl

/-- Settles O52: the boot order runs to the SQUEEZE, whose blocks are squeezed from the construction's padded state. -/
theorem strictEngineIsPaddedSponge : Obligations.StrictEngineIsPaddedSponge := by
  intro s rate n message domain hstrict h8 hmin hmax
  obtain ⟨s₁, hinit, hsponge, hparams, hresp⟩ := exec_init_next rate s
  have hadm : s₁.sponge.Admits := hsponge ▸ admits_configure h8 hmin hmax
  have hrate : (s₁.absorb (padMessage message domain)).sponge.rate = rate.toNat := by
    rw [Sponge.rate, absorb_rateBytes, hsponge]
    rfl
  have hacc : s₁.AcceptsAbsorb (padMessage message domain) :=
    ⟨hadm, hsponge ▸ rfl, by rw [padMessage_length]; exact length_add_padZeros _⟩
  have hadm' : (s₁.absorb (padMessage message domain)).sponge.Admits := hadm
  obtain ⟨r, hresp'⟩ : ∃ r, (s₁.absorb (padMessage message domain)).responses = s₁.responses ++ [r] :=
    ⟨_, absorb_responses ..⟩
  refine ⟨(s₁.absorb (padMessage message domain)).squeeze n.toNat, [.ok 0 s.params.initCost [], r],
    costSqueeze (n.toNat * rate.toNat) n.toNat, ?_, rfl, ?_⟩
  · rw [serve_cons_of_next hinit, serve_cons_of_next (exec_absorb_of_accepts hacc),
      serve_cons_of_next (exec_squeeze_of_admits hadm'), serve]
  · rw [squeeze_responses, squeezeBlocks_out, hrate,
      finalize_absorb_padMessage (hparams ▸ hstrict) hsponge hadm, hresp', hresp,
      List.append_assoc s.responses, List.singleton_append]

end Sys2Proof.Machine
end

section
/-! PROOFS. The family of the remaining statements: the command words the spec writes out, the step of a decoded request,
the bits of an opcode-table row as the next request, and the invariant at reset. -/

namespace Sys2Proof.Machine

/-! ### Decoding (R60 to R63) -/

/-- A request that is a well-formed instruction's encoding decodes to it. -/
theorem decode_of_encode_eq {q : Request} {i : Instr} (hi : i.WellFormed) (hword : encode i = q) : decode q = .ok i :=
  (decodeAndEncodeAreInverse q i).2 ⟨hi, hword⟩

/-- Settles O3: each word of V-E1 is its instruction's encoding, which is evaluated, and the decoder inverts the
encoder. -/
theorem writtenCommandWordsDecode : Obligations.WrittenCommandWordsDecode := by
  refine ⟨?_, ?_, ?_, ?_⟩
  · exact decode_of_encode_eq (wellFormed_init _) (by decide)
  · exact decode_of_encode_eq (wellFormed_init _) (by decide)
  · exact decode_of_encode_eq ((wellFormed_absorb _).2 (by decide)) (by decide)
  · exact decode_of_encode_eq (wellFormed_squeeze _) (by decide)

/-- A table row's bits are read as an instruction exactly when the request they lay out decodes to it. -/
theorem decodeTableWord_eq_some_iff (nbits w : Nat) (i : Instr) :
    decodeTableWord nbits w = some i ↔ decode (tableRequest nbits w) = .ok i := by
  unfold decodeTableWord
  cases decode (tableRequest nbits w) with
  | error why => simp
  | ok j => simp

/-! ### The step of a decoded request (R51, R73) -/

/-- Settles O5, by the branch of `step` with a request that decodes. -/
theorem stepRunsDecodedRequest : Obligations.StepRunsDecodedRequest :=
  fun _ _ _ _ hmark hinputs hdecode => step_request hmark hinputs hdecode

/-- Settles O7: the row's request is the next one and is the one decoded, and taking it gives back the inputs that waited
before it was put first. -/
theorem fetchedTableWordRuns : Obligations.FetchedTableWordRuns := by
  intro s nbits w i hmark hword
  have hdecode := (decodeTableWord_eq_some_iff nbits w i).1 hword
  have htaken : (s.withFetchWord nbits w).withInputs s.inputs = s := rfl
  have hstep : step (s.withFetchWord nbits w) = exec i ((s.withFetchWord nbits w).withInputs s.inputs) :=
    step_request hmark rfl hdecode
  rw [hstep, htaken]

/-! ### The invariant at reset (R25, R34) -/

/-- Settles O13: the core is not configured at reset. -/
theorem resetMeetsInvariant : Obligations.ResetMeetsInvariant :=
  inv_of_unconfigured atReset_configured

end Sys2Proof.Machine
end
